-- ==== Sys2Proof/Word.lean ====
section
/-! DEFINITION. The β's data types as bit strings: a register or memory word, a byte, and the two kinds of
instruction field that are operands. -/

namespace Sys2Proof

/-- A 32-bit quantity: a register, the program counter, an instruction, a memory longword (rules R6, R7, R20). -/
abbrev Word := BitVec 32

/-- One memory location (rule R31; assumption log 29). -/
abbrev Byte := BitVec 8

/-- A register number: the 5-bit contents of an Ra, Rb or Rc field (rules R8, R80). -/
abbrev RegNum := BitVec 5

/-- The 16-bit literal field of a With Literal instruction (rules R81, R85). -/
abbrev Literal := BitVec 16

end Sys2Proof
end

