-- ==== Sys2Proof/Syntax.lean ====
section
/-! DEFINITION. The instructions of the β: one constructor per row of the opcode table (rule R83), over the two
operand formats (rules R80, R81). Fields that take no part in an instruction's meaning (rule R89) are kept, so that an
instruction determines its word; no meaning reads them. -/

namespace Sys2Proof

/-- The fields of the format Without Literal below its opcode (rule R80). -/
structure WithoutLiteral where
  rc : RegNum
  ra : RegNum
  rb : RegNum
  unused : BitVec 11
deriving DecidableEq, Repr

/-- The fields of the format With Literal below its opcode (rule R81). -/
structure WithLiteral where
  rc : RegNum
  ra : RegNum
  lit : Literal
deriving DecidableEq, Repr

/-- The 32 instructions in the order of the opcode table, and the privileged opcode 0x00 with the 26 bits the source
leaves to the implementation (rules R83, R88). -/
inductive Instr where
  | add (o : WithoutLiteral)
  | addc (o : WithLiteral)
  | and (o : WithoutLiteral)
  | andc (o : WithLiteral)
  | beq (o : WithLiteral)
  | bne (o : WithLiteral)
  | cmpeq (o : WithoutLiteral)
  | cmpeqc (o : WithLiteral)
  | cmple (o : WithoutLiteral)
  | cmplec (o : WithLiteral)
  | cmplt (o : WithoutLiteral)
  | cmpltc (o : WithLiteral)
  | div (o : WithoutLiteral)
  | divc (o : WithLiteral)
  | jmp (o : WithLiteral)
  | ld (o : WithLiteral)
  | ldr (o : WithLiteral)
  | mul (o : WithoutLiteral)
  | mulc (o : WithLiteral)
  | or (o : WithoutLiteral)
  | orc (o : WithLiteral)
  | shl (o : WithoutLiteral)
  | shlc (o : WithLiteral)
  | shr (o : WithoutLiteral)
  | shrc (o : WithLiteral)
  | sra (o : WithoutLiteral)
  | srac (o : WithLiteral)
  | sub (o : WithoutLiteral)
  | subc (o : WithLiteral)
  | st (o : WithLiteral)
  | xor (o : WithoutLiteral)
  | xorc (o : WithLiteral)
  | priv (bits : BitVec 26)
deriving DecidableEq, Repr

/-- BF, "branch if false", assembles to the word of BEQ (rule R93). -/
abbrev Instr.bf (o : WithLiteral) : Instr := .beq o

/-- BT, "branch if true", assembles to the word of BNE (rule R93). -/
abbrev Instr.bt (o : WithLiteral) : Instr := .bne o

end Sys2Proof
end

