-- ==== Sys2Proof/WellFormed.lean ====
section
/-! DEFINITION. Which instructions an assembler may write: the fields that rule R89 says are unused, ignored or to be
filled with zeroes hold zero. Hardware executes the others too (rule R84, D8; assumption log 13). -/

namespace Sys2Proof

/-- Bits 10:0 of a Without Literal instruction are zero (rule R89 (a)). -/
def WithoutLiteral.wellFormed (o : WithoutLiteral) : Bool := o.unused == 0#11

/-- The strict check of rule R89 and of the opcode table's `should_be_zero` column. -/
def Instr.wellFormed : Instr → Bool
  | .add o => o.wellFormed
  | .addc _ => true
  | .and o => o.wellFormed
  | .andc _ => true
  | .beq _ => true
  | .bne _ => true
  | .cmpeq o => o.wellFormed
  | .cmpeqc _ => true
  | .cmple o => o.wellFormed
  | .cmplec _ => true
  | .cmplt o => o.wellFormed
  | .cmpltc _ => true
  | .div o => o.wellFormed
  | .divc _ => true
  | .jmp o => o.lit == 0#16
  | .ld _ => true
  | .ldr o => o.ra == 0#5
  | .mul o => o.wellFormed
  | .mulc _ => true
  | .or o => o.wellFormed
  | .orc _ => true
  | .shl o => o.wellFormed
  | .shlc _ => true
  | .shr o => o.wellFormed
  | .shrc _ => true
  | .sra o => o.wellFormed
  | .srac _ => true
  | .sub o => o.wellFormed
  | .subc _ => true
  | .st _ => true
  | .xor o => o.wellFormed
  | .xorc _ => true
  | .priv _ => true

/-- The bits of the instruction word that rule R89 wants zero: the `should_be_zero` column of the opcode table. -/
def Instr.shouldBeZero : Instr → Word
  | .add _ => 0x000007FF#32
  | .addc _ => 0#32
  | .and _ => 0x000007FF#32
  | .andc _ => 0#32
  | .beq _ => 0#32
  | .bne _ => 0#32
  | .cmpeq _ => 0x000007FF#32
  | .cmpeqc _ => 0#32
  | .cmple _ => 0x000007FF#32
  | .cmplec _ => 0#32
  | .cmplt _ => 0x000007FF#32
  | .cmpltc _ => 0#32
  | .div _ => 0x000007FF#32
  | .divc _ => 0#32
  | .jmp _ => 0x0000FFFF#32
  | .ld _ => 0#32
  | .ldr _ => 0x001F0000#32
  | .mul _ => 0x000007FF#32
  | .mulc _ => 0#32
  | .or _ => 0x000007FF#32
  | .orc _ => 0#32
  | .shl _ => 0x000007FF#32
  | .shlc _ => 0#32
  | .shr _ => 0x000007FF#32
  | .shrc _ => 0#32
  | .sra _ => 0x000007FF#32
  | .srac _ => 0#32
  | .sub _ => 0x000007FF#32
  | .subc _ => 0#32
  | .st _ => 0#32
  | .xor _ => 0x000007FF#32
  | .xorc _ => 0#32
  | .priv _ => 0#32

end Sys2Proof
end

