-- ==== Sys2Proof/Decode.lean ====
section
/-! DEFINITION. From bits to instructions and back: field extraction and the opcode map (rules R80 to R84), the encoder
of the same tables, the byte order of an instruction word (rule R51), the assembler's label literal (rule R86), and the
host's view of the decoder. -/

namespace Sys2Proof

/-- Why a bit string is no instruction. `illegalOpcode`: the opcode is one of the 31 that rule R87 lists as assigned to
nothing; the machine raises IllegalInstruction for it (rule R181). `truncated`: fewer than the four bytes of a word,
which no fetch gives (rule R90). -/
inductive DecodeError where
  | illegalOpcode (opcode : BitVec 6)
  | truncated
deriving DecidableEq, Repr

/-- `opcode = iw[31:26]` (rule R82; assumption log 1). -/
def opcodeField (iw : Word) : BitVec 6 := iw.extractLsb' 26 6

/-- `rc = iw[25:21]` (rule R82). -/
def rcField (iw : Word) : RegNum := iw.extractLsb' 21 5

/-- `ra = iw[20:16]` (rule R82). -/
def raField (iw : Word) : RegNum := iw.extractLsb' 16 5

/-- `rb = iw[15:11]` (rule R82). -/
def rbField (iw : Word) : RegNum := iw.extractLsb' 11 5

/-- `lit = iw[15:0]` (rule R82). -/
def litField (iw : Word) : Literal := iw.extractLsb' 0 16

/-- The operand fields of a Without Literal word (rules R80, R82). -/
def withoutLiteralFields (iw : Word) : WithoutLiteral :=
  { rc := rcField iw, ra := raField iw, rb := rbField iw, unused := iw.extractLsb' 0 11 }

/-- The operand fields of a With Literal word (rules R81, R82). -/
def withLiteralFields (iw : Word) : WithLiteral :=
  { rc := rcField iw, ra := raField iw, lit := litField iw }

/-- The decoding procedure of rule R84: the opcode alone selects the instruction (map of rule R83); opcode 0x00 is the
privileged space (rule R88); an opcode of rule R87's list is illegal. -/
def decode (iw : Word) : Except DecodeError Instr :=
  match (opcodeField iw).toNat with
  | 0x00 => .ok (.priv (iw.extractLsb' 0 26))
  | 0x18 => .ok (.ld (withLiteralFields iw))
  | 0x19 => .ok (.st (withLiteralFields iw))
  | 0x1B => .ok (.jmp (withLiteralFields iw))
  | 0x1D => .ok (.beq (withLiteralFields iw))
  | 0x1E => .ok (.bne (withLiteralFields iw))
  | 0x1F => .ok (.ldr (withLiteralFields iw))
  | 0x20 => .ok (.add (withoutLiteralFields iw))
  | 0x21 => .ok (.sub (withoutLiteralFields iw))
  | 0x22 => .ok (.mul (withoutLiteralFields iw))
  | 0x23 => .ok (.div (withoutLiteralFields iw))
  | 0x24 => .ok (.cmpeq (withoutLiteralFields iw))
  | 0x25 => .ok (.cmplt (withoutLiteralFields iw))
  | 0x26 => .ok (.cmple (withoutLiteralFields iw))
  | 0x28 => .ok (.and (withoutLiteralFields iw))
  | 0x29 => .ok (.or (withoutLiteralFields iw))
  | 0x2A => .ok (.xor (withoutLiteralFields iw))
  | 0x2C => .ok (.shl (withoutLiteralFields iw))
  | 0x2D => .ok (.shr (withoutLiteralFields iw))
  | 0x2E => .ok (.sra (withoutLiteralFields iw))
  | 0x30 => .ok (.addc (withLiteralFields iw))
  | 0x31 => .ok (.subc (withLiteralFields iw))
  | 0x32 => .ok (.mulc (withLiteralFields iw))
  | 0x33 => .ok (.divc (withLiteralFields iw))
  | 0x34 => .ok (.cmpeqc (withLiteralFields iw))
  | 0x35 => .ok (.cmpltc (withLiteralFields iw))
  | 0x36 => .ok (.cmplec (withLiteralFields iw))
  | 0x38 => .ok (.andc (withLiteralFields iw))
  | 0x39 => .ok (.orc (withLiteralFields iw))
  | 0x3A => .ok (.xorc (withLiteralFields iw))
  | 0x3C => .ok (.shlc (withLiteralFields iw))
  | 0x3D => .ok (.shrc (withLiteralFields iw))
  | 0x3E => .ok (.srac (withLiteralFields iw))
  | _ => .error (.illegalOpcode (opcodeField iw))

/-- The opcode of each instruction (the list of rule R83). -/
def Instr.opcode : Instr → BitVec 6
  | .add _ => 0x20#6
  | .addc _ => 0x30#6
  | .and _ => 0x28#6
  | .andc _ => 0x38#6
  | .beq _ => 0x1D#6
  | .bne _ => 0x1E#6
  | .cmpeq _ => 0x24#6
  | .cmpeqc _ => 0x34#6
  | .cmple _ => 0x26#6
  | .cmplec _ => 0x36#6
  | .cmplt _ => 0x25#6
  | .cmpltc _ => 0x35#6
  | .div _ => 0x23#6
  | .divc _ => 0x33#6
  | .jmp _ => 0x1B#6
  | .ld _ => 0x18#6
  | .ldr _ => 0x1F#6
  | .mul _ => 0x22#6
  | .mulc _ => 0x32#6
  | .or _ => 0x29#6
  | .orc _ => 0x39#6
  | .shl _ => 0x2C#6
  | .shlc _ => 0x3C#6
  | .shr _ => 0x2D#6
  | .shrc _ => 0x3D#6
  | .sra _ => 0x2E#6
  | .srac _ => 0x3E#6
  | .sub _ => 0x21#6
  | .subc _ => 0x31#6
  | .st _ => 0x19#6
  | .xor _ => 0x2A#6
  | .xorc _ => 0x3A#6
  | .priv _ => 0x00#6

/-- Composition of a Without Literal word: `opcode<<26 | rc<<21 | ra<<16 | rb<<11 | unused` (rule R82). -/
def composeWithoutLiteral (op : BitVec 6) (o : WithoutLiteral) : Word :=
  op ++ o.rc ++ o.ra ++ o.rb ++ o.unused

/-- Composition of a With Literal word: `opcode<<26 | rc<<21 | ra<<16 | lit` (rule R82). -/
def composeWithLiteral (op : BitVec 6) (o : WithLiteral) : Word :=
  op ++ o.rc ++ o.ra ++ o.lit

/-- The word of an instruction (rules R80 to R83); opcode 0x00 is followed by the implementation's 26 bits (rule R88). -/
def encode : Instr → Word
  | .add o => composeWithoutLiteral (Instr.opcode (.add o)) o
  | .addc o => composeWithLiteral (Instr.opcode (.addc o)) o
  | .and o => composeWithoutLiteral (Instr.opcode (.and o)) o
  | .andc o => composeWithLiteral (Instr.opcode (.andc o)) o
  | .beq o => composeWithLiteral (Instr.opcode (.beq o)) o
  | .bne o => composeWithLiteral (Instr.opcode (.bne o)) o
  | .cmpeq o => composeWithoutLiteral (Instr.opcode (.cmpeq o)) o
  | .cmpeqc o => composeWithLiteral (Instr.opcode (.cmpeqc o)) o
  | .cmple o => composeWithoutLiteral (Instr.opcode (.cmple o)) o
  | .cmplec o => composeWithLiteral (Instr.opcode (.cmplec o)) o
  | .cmplt o => composeWithoutLiteral (Instr.opcode (.cmplt o)) o
  | .cmpltc o => composeWithLiteral (Instr.opcode (.cmpltc o)) o
  | .div o => composeWithoutLiteral (Instr.opcode (.div o)) o
  | .divc o => composeWithLiteral (Instr.opcode (.divc o)) o
  | .jmp o => composeWithLiteral (Instr.opcode (.jmp o)) o
  | .ld o => composeWithLiteral (Instr.opcode (.ld o)) o
  | .ldr o => composeWithLiteral (Instr.opcode (.ldr o)) o
  | .mul o => composeWithoutLiteral (Instr.opcode (.mul o)) o
  | .mulc o => composeWithLiteral (Instr.opcode (.mulc o)) o
  | .or o => composeWithoutLiteral (Instr.opcode (.or o)) o
  | .orc o => composeWithLiteral (Instr.opcode (.orc o)) o
  | .shl o => composeWithoutLiteral (Instr.opcode (.shl o)) o
  | .shlc o => composeWithLiteral (Instr.opcode (.shlc o)) o
  | .shr o => composeWithoutLiteral (Instr.opcode (.shr o)) o
  | .shrc o => composeWithLiteral (Instr.opcode (.shrc o)) o
  | .sra o => composeWithoutLiteral (Instr.opcode (.sra o)) o
  | .srac o => composeWithLiteral (Instr.opcode (.srac o)) o
  | .sub o => composeWithoutLiteral (Instr.opcode (.sub o)) o
  | .subc o => composeWithLiteral (Instr.opcode (.subc o)) o
  | .st o => composeWithLiteral (Instr.opcode (.st o)) o
  | .xor o => composeWithoutLiteral (Instr.opcode (.xor o)) o
  | .xorc o => composeWithLiteral (Instr.opcode (.xorc o)) o
  | .priv b => Instr.opcode (.priv b) ++ b

/-- The word whose bytes, from the lowest address up, are `b0 b1 b2 b3`: little-endian (rule R51, D2; assumption
log 2). -/
def leWord (b0 b1 b2 b3 : Byte) : Word := b3 ++ b2 ++ b1 ++ b0

/-- Byte `i` of a word in memory order: bits `8i+7 : 8i` (rule R51; assumption log 2). -/
def leByte (w : Word) (i : Nat) : Byte := w.extractLsb' (8 * i) 8

/-- The decoder over bytes as they lie in memory: one instruction and the bytes after it (rule R90: every instruction
is one 32-bit word). -/
def decodeBytes : List Byte → Except DecodeError (Instr × List Byte)
  | b0 :: b1 :: b2 :: b3 :: rest =>
    match decode (leWord b0 b1 b2 b3) with
    | .ok i => .ok (i, rest)
    | .error e => .error e
  | _ => .error .truncated

/-- The host's question: what the decoder reads from an instruction whose bits are `w`, bits from `nbits` up being
zero, laid out in memory order. -/
def decodeTableWord (nbits w : Nat) : Option Instr :=
  let iw : Word := BitVec.ofNat 32 (w % 2 ^ nbits)
  match decodeBytes [leByte iw 0, leByte iw 1, leByte iw 2, leByte iw 3] with
  | .ok (i, _) => some i
  | .error _ => none

/-- The literal an assembler computes for BEQ, BNE and LDR written with a label,
`((OFFSET(label) - OFFSET(current instruction)) >> 2) - 1`; a label that is no multiple of 4 away, or out of the
16-bit range, is rejected (rule R86, D24; assumption log 31). -/
def labelLiteral (label current : Nat) : Option Literal :=
  let distance : Int := (label : Int) - (current : Int)
  if distance % 4 = 0 ∧ -131068 ≤ distance ∧ distance ≤ 131072 then
    some (BitVec.ofInt 16 (distance / 4 - 1))
  else
    none

end Sys2Proof
end

