-- ==== Sys2Proof/Config.lean ====
section
/-! DEFINITION. What an implementation of the β fixes and the source leaves open (rule R5, spec/92, spec/93): every
constant here is opaque, so that no proof can learn its value and a theorem holds whatever an implementation chose.
The parameters to which the model gives a value (MEM_MAP, BYTE_ORDER, EXTRA_EXCEPTIONS, PRIV_INSTRUCTIONS) stand where
they are used, each with its entry of the assumption log. -/

namespace Sys2Proof.Config

/-- The values rule R54 gives the parameter MISALIGNED_DATA: what LD and ST do where the effective address is not a
multiple of 4. `refuse`: nothing is known, the model stops; `mask`: the word at the address with bits 1:0 cleared. -/
inductive MisalignedData where
  | refuse
  | mask
deriving DecidableEq, Repr, Inhabited

/-- The two readings rule R175 gives the parameter BRANCH_RA_EQ_RC: which value BEQ and BNE test where Ra and Rc name
the same register. -/
inductive BranchTest where
  | afterWrite
  | beforeWrite
deriving DecidableEq, Repr, Inhabited

/-- The two readings decision D11 gives the parameter LDR_WRAP: where the address sum of LDR leaves 0 to 2^31 - 1. -/
inductive LdrWrap where
  | mod31
  | mod32
deriving DecidableEq, Repr, Inhabited

/-- MISALIGNED_DATA (rule R54, D3). DESIGN CHOICE, safe: assumption log 7. -/
opaque misalignedData : MisalignedData

/-- BRANCH_RA_EQ_RC (rule R175, D10, C8). DESIGN CHOICE, unsafe if hardware does neither: assumption log 11. -/
opaque branchRaEqRc : BranchTest

/-- LDR_WRAP (rule R161, D11). DESIGN CHOICE, unsafe if hardware does neither: assumption log 12. -/
opaque ldrWrap : LdrWrap

/-- DIV_BY_ZERO (rule R119 (a), D6): the free quotient, a function of the dividend. DESIGN CHOICE: assumption log 8. -/
opaque divByZero : Word → Word

/-- DIV_OVERFLOW (rule R119 (b), D7): the free quotient of -2^31 by -1. DESIGN CHOICE: assumption log 9. -/
opaque divOverflow : Word

/-- VEC_ILLOP, bits 30:2 of the illegal-instruction vector (rule R206, D13); assumption log 15. -/
opaque vecIllop : BitVec 29

/-- VEC_INT(s), bits 30:2 of the vector of interrupt source `s` (rule R206, D13); assumption log 15. -/
opaque vecInt : Nat → BitVec 29

/-- VEC_FAULT(k), bits 30:2 of the vector of an implementation's own exception kind `k` (rule R206, D13);
assumption log 15. -/
opaque vecFault : Nat → BitVec 29

end Sys2Proof.Config
end

