-- ==== Sys2Proof/Machine/State.lean ====
section
/-! DEFINITION. The programmer-visible state of the β (10_state.md), the kinds of exception, the reasons a step can
stop, and the state after reset. -/

namespace Sys2Proof.Machine

/-- The memory as plain data: the bytes that hold a value, by address, in one canonical form (Memory.wf). A byte that
is not listed has no value (rule R35; assumption log 5). -/
abbrev Memory := List Host.Cell

/-- The kinds of exception that enter a handler (rules R11, R201): the illegal instruction, an interrupt of source `s`
(rule R208), and the kinds an implementation adds (EXTRA_EXCEPTIONS; none is raised by this model: assumption log 16).
Reset is the start of a run, State.reset (rule R207). -/
inductive ExcKind where
  | illegalInstruction
  | interrupt (source : Nat)
  | extra (kind : Nat)
deriving DecidableEq, Repr

/-- What stops the machine with nothing known of the state after it. -/
inductive Fault where
  /-- Raised by `raise` for a trap or fault in supervisor mode, whose effects are "implementation-defined (probably
  fatal)" (rule R212, D14). Safe: the hardware may go on, the model does not (assumption log 17). -/
  | supervisorException (kind : ExcKind)
  /-- Raised by `memRead` for a word of which some byte has never been written (rule R35, U12). Safe: the hardware reads
  some value there (assumption log 5). -/
  | unwrittenMemory (address : Nat)
deriving DecidableEq, Repr

/-- What the model gives no meaning to. -/
inductive Refusal where
  /-- Raised by `exec` alone, for an instruction that has no meaning yet. Safe. No arm uses it now. -/
  | notModelled (mnemonic : String)
  /-- Raised by PRIV in supervisor mode: "their form and semantics are implementation-defined" (rule R180, D15). Safe
  (assumption log 18). -/
  | privilegedImplementationDefined (bits : BitVec 26)
  /-- Raised by LD and ST at an address that is no multiple of 4, where the implementation's MISALIGNED_DATA is
  `refuse`: such an access "has no defined meaning" (rule R54, D3). Safe (assumption log 7). -/
  | misalignedData (address : Word)
  /-- Raised by an access outside MEM_MAP (rule R58, D19). Safe (assumption log 6). -/
  | notPlainMemory (address : Word)
deriving DecidableEq, Repr

/-- What an operation that can stop answers. -/
abbrev Answer (α : Type) := Host.Outcome α Fault Refusal

/-- The state of the machine (rules R20 to R34). -/
structure State where
  /-- Registers 0 to 30; register 31 holds no state (rules R20, R21); register 30 is XP (rule R22). -/
  regs : Vector Word 31
  /-- The program counter; bit 31 is the Supervisor bit (rule R24). -/
  pc : Word
  /-- The one memory of instructions and data (rules R31, R32). -/
  mem : Memory
  /-- The interrupts the environment presents, one entry for each coming user-mode instruction boundary: `some s`, an
  interrupt of source `s` is taken there; `none`, no interrupt is taken there. No entry left: none is taken. In
  supervisor mode the list waits: a pending interrupt stays pending (rules R34, R208, R212; assumption log 19). -/
  interrupts : List (Option Nat)
deriving DecidableEq, Repr

/-- The state after the reset exception and before the first instruction (rules R35, R207, R240): supervisor mode,
address 0. The values of the registers are the model's, zero (assumption log 3; XP, "undefined": log 4); no memory byte
holds a value (log 5); no interrupt is presented (log 19). -/
def State.reset : State :=
  { regs := Vector.replicate 31 0#32
    pc := 0x80000000#32
    mem := []
    interrupts := [] }

end Sys2Proof.Machine
end

