-- ==== Sys2Proof/Machine/Ops.lean ====
section
/-! DEFINITION. The named operations every meaning is made of: register, program-counter and memory access (rules R8,
R9, R10), exception entry and return (rules R206, R213), the interrupt boundary (rule R208), and how an instruction
ends. -/

namespace Sys2Proof.Machine

/-- Continue with the value of an operation that may stop. -/
def andThen {α β : Type} (x : Answer α) (f : α → Answer β) : Answer β :=
  match x with
  | .next a => f a
  | .fault r => .fault r
  | .refused r => .refused r

/-! ### Registers -/

/-- The number of the Exception Pointer XP (rule R22). -/
def xpNum : RegNum := 30#5

/-- `x[i]`: the contents of register `i`, and 0 for register 31 (rules R8, R21). -/
def State.readReg (s : State) (r : RegNum) : Word :=
  if h : r.toNat < 31 then s.regs[r.toNat] else 0#32

/-- `x[i] <- v`: nothing happens for register 31, the bit bucket (rules R8, R21). -/
def State.writeReg (s : State) (r : RegNum) (v : Word) : State :=
  if h : r.toNat < 31 then { s with regs := s.regs.set r.toNat v h } else s

/-- `pc <- t` (rule R9). -/
def State.setPc (s : State) (t : Word) : State := { s with pc := t }

/-- The state with another memory. -/
def State.setMem (s : State) (m : Memory) : State := { s with mem := m }

/-- The state with another sequence of coming interrupts. -/
def State.setInterrupts (s : State) (l : List (Option Nat)) : State := { s with interrupts := l }

/-! ### Program counter -/

/-- `p[31]`, the Supervisor bit of a program counter (rule R24). -/
def supBit (p : Word) : BitVec 1 := p.extractLsb' 31 1

/-- `p[30:0]`, the address part of a program counter (rule R24). -/
def addrPart (p : Word) : BitVec 31 := p.extractLsb' 0 31

/-- Supervisor mode: the Supervisor bit is set (rule R205). -/
def State.supervisor (s : State) : Bool := supBit s.pc == 1#1

/-- `pc_inc(p) = p[31] ++ ((p[30:0] + 4) mod 2^31)`, the updated PC (rules R9, R27; assumption log 24). -/
def pcInc (p : Word) : Word := supBit p ++ (addrPart p + 4#31)

/-- `pc_target(p, off) = p[31] ++ ((p[30:0] + off) mod 2^31)` (rules R9, R26; assumption log 24). -/
def pcTarget (p off : Word) : Word := supBit p ++ (addrPart p + addrPart off)

/-- The instruction ends with `pc <- npc` (rule R27). -/
def State.advance (s : State) : State := s.setPc (pcInc s.pc)

/-- The end of an instruction that writes `v` to `x[rc]` and goes on to the next instruction. -/
def writeResult (rc : RegNum) (v : Word) (s : State) : Answer State :=
  .next (s.writeReg rc v).advance

/-! ### Memory -/

/-- The value of the byte at an address, none where nothing has been written (rule R35; assumption log 5). -/
def Memory.readByte : Memory → Nat → Option Byte
  | [], _ => none
  | (b, v) :: m, a => if a = b then some v else Memory.readByte m a

/-- Replace the byte at an address, keeping addresses strictly rising. -/
def Memory.writeByte : Memory → Nat → Byte → Memory
  | [], a, v => [(a, v)]
  | (b, w) :: m, a, v =>
    if a < b then (a, v) :: (b, w) :: m
    else if a = b then (a, v) :: m
    else (b, w) :: Memory.writeByte m a v

/-- Every address of the list is at least `lo`, and they strictly rise. -/
def Memory.risingFrom : Nat → Memory → Bool
  | _, [] => true
  | lo, (a, _) :: m => decide (lo ≤ a) && Memory.risingFrom (a + 1) m

/-- The canonical form: addresses strictly rising and below 2^32 (rule R31). An unlisted byte has no value, so no entry
can equal what it reads as. -/
def Memory.wf (m : Memory) : Bool :=
  Memory.risingFrom 0 m && m.all fun c => decide (c.1 < 2 ^ 32)

/-- The longword at a byte address, if all four of its bytes hold a value; little-endian (rules R50, R51). -/
def Memory.readWord (m : Memory) (a : Nat) : Option Word := do
  let b0 ← Memory.readByte m a
  let b1 ← Memory.readByte m (a + 1)
  let b2 ← Memory.readByte m (a + 2)
  let b3 ← Memory.readByte m (a + 3)
  return leWord b0 b1 b2 b3

/-- Replace the longword at a byte address; little-endian (rules R50, R51). -/
def Memory.writeWord (m : Memory) (a : Nat) (v : Word) : Memory :=
  let m := Memory.writeByte m a (leByte v 0)
  let m := Memory.writeByte m (a + 1) (leByte v 1)
  let m := Memory.writeByte m (a + 2) (leByte v 2)
  Memory.writeByte m (a + 3) (leByte v 3)

/-- MEM_MAP: the regions of plain read-write memory, as (base, size). The spec leaves it a parameter; this model
populates the whole 32-bit address space (rules R57, R58, D19). DESIGN CHOICE, unsafe: assumption log 6. -/
def memMap : List (Nat × Nat) := [(0, 2 ^ 32)]

/-- The longword at `a` lies in plain memory (rule R58). -/
def plainMemory (a : Word) : Bool :=
  memMap.any fun r => decide (r.1 ≤ a.toNat) && decide (a.toNat + 4 ≤ r.1 + r.2)

/-- `MemRead(addr, 4)` (rules R10, R50, R58). -/
def memRead (m : Memory) (a : Word) : Answer Word :=
  if plainMemory a then
    match Memory.readWord m a.toNat with
    | some w => .next w
    | none => .fault (.unwrittenMemory a.toNat)
  else
    .refused (.notPlainMemory a)

/-- `MemWrite(addr, 4, v)` (rules R10, R50, R58). -/
def memWrite (s : State) (a v : Word) : Answer State :=
  if plainMemory a then .next (s.setMem (Memory.writeWord s.mem a.toNat v))
  else .refused (.notPlainMemory a)

/-- The address LD or ST accesses for the effective address `ea`: `ea` itself where it is a multiple of 4; otherwise as
the parameter MISALIGNED_DATA says (rule R54 (d), D3; assumption log 7). All 32 bits of `ea` count (rule R33, D20;
assumption log 22). -/
def dataAddress (ea : Word) : Answer Word :=
  if ea.extractLsb' 0 2 = 0#2 then .next ea
  else
    match Config.misalignedData with
    | .mask => .next (ea &&& 0xFFFFFFFC#32)
    | .refuse => .refused (.misalignedData ea)

/-- `zext_32(p[30:0])`, the address of the instruction at program counter `p`: bit 31 is ignored (rules R10, R33). -/
def fetchAddress (p : Word) : Word := (addrPart p).setWidth 32

/-- `Fetch(pc)` (rules R10, R13). -/
def fetch (s : State) : Answer Word := memRead s.mem (fetchAddress s.pc)

/-! ### Exceptions and interrupts -/

/-- `VEC(K)[30:2]` (rule R206). -/
def vector : ExcKind → BitVec 29
  | .illegalInstruction => Config.vecIllop
  | .interrupt source => Config.vecInt source
  | .extra kind => Config.vecFault kind

/-- `1 ++ VEC(K)[30:0]`: the program counter an exception of kind `K` loads, a multiple of 4 in supervisor mode
(rule R206, D13; assumption log 15). -/
def vectorPc (k : ExcKind) : Word := 1#1 ++ vector k ++ 0#2

/-- Exception entry: `x[30] <- pc_inc(pc); pc <- 1 ++ VEC(K)[30:0]` and nothing else (rules R203, R206). -/
def takeException (k : ExcKind) (s : State) : State :=
  (s.writeReg xpNum (pcInc s.pc)).setPc (vectorPc k)

/-- `raise K`: in user mode the entry sequence; in supervisor mode a terminal fault (rules R11, R206, R212, D14;
assumption log 17). -/
def raise (k : ExcKind) (s : State) : Answer State :=
  if s.supervisor then .fault (.supervisorException k) else .next (takeException k s)

/-- The program counter JMP loads, which is also the return from an exception: bits 1:0 of the target cleared, and the
Supervisor bit of the target only where it was set already (rules R26, R172, R213). -/
def jumpPc (p target : Word) : Word :=
  let ea := target &&& 0xFFFFFFFC#32
  (supBit p &&& supBit ea) ++ addrPart ea

/-- The source whose interrupt is taken at this instruction boundary, if any: none in supervisor mode; in user mode
what the environment presents (rules R13 (1), R208, R212; assumption log 19). -/
def interruptTaken (s : State) : Option Nat :=
  if s.supervisor then none else s.interrupts.head?.join

/-- The environment's choice at this boundary is spent; in supervisor mode there is none to spend (rule R208). -/
def passBoundary (s : State) : State :=
  if s.supervisor then s else s.setInterrupts s.interrupts.tail

/-- The state in which the environment presents no interrupt at this boundary. -/
def withholdInterrupt (s : State) : State :=
  if (interruptTaken s).isSome then s.setInterrupts (none :: s.interrupts.tail) else s

/-- What happens with the word fetched: its instruction by `run`, or IllegalInstruction where the opcode is assigned to
none (rules R13 (4) and (5), R84, R87, R181; assumption log 14). -/
def dispatchWord (run : Instr → State → Answer State) (s : State) (iw : Word) : Answer State :=
  match decode iw with
  | .ok i => run i s
  | .error _ => raise .illegalInstruction s

/-- One step of the processor, in the order of rule R13, over the meanings `run`. -/
def stepWith (run : Instr → State → Answer State) (s : State) : Answer State :=
  match interruptTaken s with
  | some source => raise (.interrupt source) (passBoundary s)
  | none => andThen (fetch s) fun iw => dispatchWord run (passBoundary s) iw

/-- Place an instruction word where the next step fetches, little-endian, and present no interrupt there (assumption
log 25). -/
def placeFetchWord (s : State) (iw : Word) : State :=
  (withholdInterrupt s).setMem (Memory.writeWord s.mem (fetchAddress s.pc).toNat iw)

end Sys2Proof.Machine
end

