-- ==== Sys2Proof/Machine/Operands.lean ====
section
/-! DEFINITION. The operand forms of the β (rules R85, R156, R163): sign-extended literal, shift count, base plus
displacement, branch offset, the PC-relative address of LDR, and the register a branch tests. -/

namespace Sys2Proof.Machine

/-- `sext_32(lit)` (rules R7, R85 (a)). -/
def literalOperand (lit : Literal) : Word := lit.signExtend 32

/-- `4 * sext_32(lit)`, a byte offset (rule R85 (b)). -/
def longwordOffset (lit : Literal) : Word := literalOperand lit <<< 2

/-- `x[rb][4:0]`, the five-bit count in a register (rule R156). -/
def registerCount (v : Word) : Nat := (v.extractLsb' 0 5).toNat

/-- `lit[4:0]`, the five-bit count in a literal (rules R85 (c), R156). -/
def literalCount (lit : Literal) : Nat := (lit.extractLsb' 0 5).toNat

/-- `EA = (x[ra] + sext_32(lit)) mod 2^32`, the address of LD and ST (rule R163 (a)). -/
def baseDisplacement (s : State) (o : WithLiteral) : Word :=
  s.readReg o.ra + literalOperand o.lit

/-- The exact address sum of LDR: `npc[30:0] + 4*sext(lit)`, as an integer (rules R161, R163 (b)). -/
def ldrSum (npc : Word) (lit : Literal) : Int := (addrPart npc).toNat + 4 * lit.toInt

/-- The address of LDR: the sum where it lies in 0 to 2^31 - 1; otherwise as the parameter LDR_WRAP says (rule R161,
D11; assumption log 12). -/
def ldrAddress (npc : Word) (lit : Literal) : Word :=
  if 0 ≤ ldrSum npc lit ∧ ldrSum npc lit < 2 ^ 31 then BitVec.ofInt 32 (ldrSum npc lit)
  else
    match Config.ldrWrap with
    | .mod31 => (BitVec.ofInt 31 (ldrSum npc lit)).setWidth 32
    | .mod32 => BitVec.ofInt 32 (ldrSum npc lit)

/-- The value BEQ and BNE test: `x[ra]`. Where Ra and Rc name the same register other than 31, the old value or the
link just written, as the parameter BRANCH_RA_EQ_RC says (rule R175, D10, C8; assumption log 11). -/
def testedValue (s : State) (o : WithLiteral) (npc : Word) : Word :=
  if o.ra = o.rc ∧ o.ra ≠ 31#5 then
    match Config.branchRaEqRc with
    | .afterWrite => npc
    | .beforeWrite => s.readReg o.ra
  else
    s.readReg o.ra

end Sys2Proof.Machine
end

