-- ==== Sys2Proof/Machine/Arithmetic.lean ====
section
/-! DEFINITION. The arithmetic instructions (40_arithmetic.md): no flags, no exceptions (rule R118). -/

namespace Sys2Proof.Machine

/-- The quotient of DIV and DIVC: operands signed, truncated toward zero (rule R119, D5; assumption log 10). Its two
cases without a stated result are free values of Config (rule R119 (a), (b); assumption log 8, 9). -/
def quotient (a b : Word) : Word :=
  if b = 0#32 then Config.divByZero a
  else if a = 0x80000000#32 ∧ b = 0xFFFFFFFF#32 then Config.divOverflow
  else BitVec.ofInt 32 (a.toInt.tdiv b.toInt)

/-- ADD: `x[rc] <- (x[ra] + x[rb]) mod 2^32` (rule R110). -/
def execAdd (o : WithoutLiteral) (s : State) : Answer State :=
  writeResult o.rc (s.readReg o.ra + s.readReg o.rb) s

/-- ADDC: `x[rc] <- (x[ra] + sext_32(lit)) mod 2^32` (rule R111). -/
def execAddc (o : WithLiteral) (s : State) : Answer State :=
  writeResult o.rc (s.readReg o.ra + literalOperand o.lit) s

/-- SUB: `x[rc] <- (x[ra] - x[rb]) mod 2^32` (rule R112). -/
def execSub (o : WithoutLiteral) (s : State) : Answer State :=
  writeResult o.rc (s.readReg o.ra - s.readReg o.rb) s

/-- SUBC: `x[rc] <- (x[ra] - sext_32(lit)) mod 2^32` (rule R113). -/
def execSubc (o : WithLiteral) (s : State) : Answer State :=
  writeResult o.rc (s.readReg o.ra - literalOperand o.lit) s

/-- MUL: `x[rc] <- (x[ra] * x[rb]) mod 2^32` (rule R114). -/
def execMul (o : WithoutLiteral) (s : State) : Answer State :=
  writeResult o.rc (s.readReg o.ra * s.readReg o.rb) s

/-- MULC: `x[rc] <- (x[ra] * sext_32(lit)) mod 2^32` (rule R115). -/
def execMulc (o : WithLiteral) (s : State) : Answer State :=
  writeResult o.rc (s.readReg o.ra * literalOperand o.lit) s

/-- DIV: the truncated quotient of `x[ra]` by `x[rb]` (rule R116). -/
def execDiv (o : WithoutLiteral) (s : State) : Answer State :=
  writeResult o.rc (quotient (s.readReg o.ra) (s.readReg o.rb)) s

/-- DIVC: the truncated quotient of `x[ra]` by `sext_32(lit)` (rule R117). -/
def execDivc (o : WithLiteral) (s : State) : Answer State :=
  writeResult o.rc (quotient (s.readReg o.ra) (literalOperand o.lit)) s

end Sys2Proof.Machine
end

