-- ==== Sys2Proof/Machine/Flags.lean ====
section
/-! DEFINITION. The β has no flags, no carry and no condition codes (rule R28). What takes their place is the truth
value a compare instruction writes to a register (rule R136); this file holds its computation. -/

namespace Sys2Proof.Machine

/-- The 32-bit value 1 for a relation that holds and 0 for one that does not (rule R136). -/
def truthWord (b : Bool) : Word := if b then 1#32 else 0#32

/-- Equality of all 32 bits (rule R136). -/
def equalTest (a b : Word) : Bool := a == b

/-- `a <s b`: less than as signed quantities, exact for all operands (rules R7, R136). -/
def lessTest (a b : Word) : Bool := decide (a.toInt < b.toInt)

/-- `a <=s b`: less than or equal as signed quantities (rules R7, R136). -/
def lessEqualTest (a b : Word) : Bool := decide (a.toInt ≤ b.toInt)

/-- The test of BEQ and, negated, of BNE: all 32 bits are zero (rules R170, R171). -/
def zeroTest (v : Word) : Bool := v == 0#32

end Sys2Proof.Machine
end

