-- ==== Sys2Proof/Machine/Branch.lean ====
section
/-! DEFINITION. The control transfer instructions (45_branch.md, rule R173). -/

namespace Sys2Proof.Machine

/-- What BEQ and BNE share: `x[rc] <- npc` in both outcomes, and `pc <- EA` where the branch is taken, `pc <- npc`
where it is not; the target keeps the Supervisor bit (rules R170, R171, R173, R26). -/
def branch (taken : Word → Bool) (o : WithLiteral) (s : State) : Answer State :=
  let npc := pcInc s.pc
  let target := pcTarget npc (longwordOffset o.lit)
  .next ((s.writeReg o.rc npc).setPc (if taken (testedValue s o npc) then target else npc))

/-- BEQ, BF: taken where the tested value is zero (rule R170). -/
def execBeq (o : WithLiteral) (s : State) : Answer State :=
  branch zeroTest o s

/-- BNE, BT: taken where the tested value is not zero (rule R171). -/
def execBne (o : WithLiteral) (s : State) : Answer State :=
  branch (fun v => !zeroTest v) o s

/-- JMP: the link to `x[rc]`, then the PC from the old `x[ra]`; it may clear the Supervisor bit and cannot set it; the
literal is ignored (rules R172, R89). It is also the return from an exception handler (rule R213). -/
def execJmp (o : WithLiteral) (s : State) : Answer State :=
  .next ((s.writeReg o.rc (pcInc s.pc)).setPc (jumpPc s.pc (s.readReg o.ra)))

end Sys2Proof.Machine
end

