-- ==== Sys2Proof/Machine/Compare.lean ====
section
/-! DEFINITION. The compare instructions (41_compare.md, rule R136). -/

namespace Sys2Proof.Machine

/-- CMPEQ: `x[rc] <- if x[ra] = x[rb] then 1 else 0` (rule R130). -/
def execCmpeq (o : WithoutLiteral) (s : State) : Answer State :=
  writeResult o.rc (truthWord (equalTest (s.readReg o.ra) (s.readReg o.rb))) s

/-- CMPEQC: `x[rc] <- if x[ra] = sext_32(lit) then 1 else 0` (rule R131). -/
def execCmpeqc (o : WithLiteral) (s : State) : Answer State :=
  writeResult o.rc (truthWord (equalTest (s.readReg o.ra) (literalOperand o.lit))) s

/-- CMPLT: `x[rc] <- if x[ra] <s x[rb] then 1 else 0` (rule R132). -/
def execCmplt (o : WithoutLiteral) (s : State) : Answer State :=
  writeResult o.rc (truthWord (lessTest (s.readReg o.ra) (s.readReg o.rb))) s

/-- CMPLTC: `x[rc] <- if x[ra] <s sext_32(lit) then 1 else 0` (rule R133). -/
def execCmpltc (o : WithLiteral) (s : State) : Answer State :=
  writeResult o.rc (truthWord (lessTest (s.readReg o.ra) (literalOperand o.lit))) s

/-- CMPLE: `x[rc] <- if x[ra] <=s x[rb] then 1 else 0` (rule R134). -/
def execCmple (o : WithoutLiteral) (s : State) : Answer State :=
  writeResult o.rc (truthWord (lessEqualTest (s.readReg o.ra) (s.readReg o.rb))) s

/-- CMPLEC: `x[rc] <- if x[ra] <=s sext_32(lit) then 1 else 0` (rule R135). -/
def execCmplec (o : WithLiteral) (s : State) : Answer State :=
  writeResult o.rc (truthWord (lessEqualTest (s.readReg o.ra) (literalOperand o.lit))) s

end Sys2Proof.Machine
end

