-- ==== Sys2Proof/Machine/LoadStore.lean ====
section
/-! DEFINITION. The load and store instructions (44_load_store.md, rule R163). -/

namespace Sys2Proof.Machine

/-- LD: `EA <- (x[ra] + sext_32(lit)) mod 2^32; x[rc] <- MemRead(EA, 4)` (rule R160). The read is made for Rc = 31
too. -/
def execLd (o : WithLiteral) (s : State) : Answer State :=
  andThen (dataAddress (baseDisplacement s o)) fun a =>
  andThen (memRead s.mem a) fun v =>
  writeResult o.rc v s

/-- LDR: `EA <- zext_32(npc[30:0]) + 4*sext_32(lit); x[rc] <- MemRead(EA, 4)`; the Ra field is ignored (rules R161,
R89). -/
def execLdr (o : WithLiteral) (s : State) : Answer State :=
  andThen (memRead s.mem (ldrAddress (pcInc s.pc) o.lit)) fun v =>
  writeResult o.rc v s

/-- ST: `EA <- (x[ra] + sext_32(lit)) mod 2^32; MemWrite(EA, 4, x[rc])`; no register is written (rule R162). -/
def execSt (o : WithLiteral) (s : State) : Answer State :=
  andThen (dataAddress (baseDisplacement s o)) fun a =>
  andThen (memWrite s a (s.readReg o.rc)) fun t =>
  .next t.advance

end Sys2Proof.Machine
end

