-- ==== Sys2Proof/Machine/Logical.lean ====
section
/-! DEFINITION. The logical instructions (42_logical.md, rule R146). -/

namespace Sys2Proof.Machine

/-- AND: `x[rc] <- x[ra] & x[rb]` (rule R140). -/
def execAnd (o : WithoutLiteral) (s : State) : Answer State :=
  writeResult o.rc (s.readReg o.ra &&& s.readReg o.rb) s

/-- ANDC: `x[rc] <- x[ra] & sext_32(lit)` (rule R141). -/
def execAndc (o : WithLiteral) (s : State) : Answer State :=
  writeResult o.rc (s.readReg o.ra &&& literalOperand o.lit) s

/-- OR: `x[rc] <- x[ra] | x[rb]` (rule R142). -/
def execOr (o : WithoutLiteral) (s : State) : Answer State :=
  writeResult o.rc (s.readReg o.ra ||| s.readReg o.rb) s

/-- ORC: `x[rc] <- x[ra] | sext_32(lit)` (rule R143). -/
def execOrc (o : WithLiteral) (s : State) : Answer State :=
  writeResult o.rc (s.readReg o.ra ||| literalOperand o.lit) s

/-- XOR: `x[rc] <- x[ra] ^ x[rb]` (rule R144). -/
def execXor (o : WithoutLiteral) (s : State) : Answer State :=
  writeResult o.rc (s.readReg o.ra ^^^ s.readReg o.rb) s

/-- XORC: `x[rc] <- x[ra] ^ sext_32(lit)` (rule R145). -/
def execXorc (o : WithLiteral) (s : State) : Answer State :=
  writeResult o.rc (s.readReg o.ra ^^^ literalOperand o.lit) s

end Sys2Proof.Machine
end

