-- ==== Sys2Proof/Machine/Shift.lean ====
section
/-! DEFINITION. The shift instructions (43_shift.md, rule R156). -/

namespace Sys2Proof.Machine

/-- SHL: `x[rc] <- x[ra] << x[rb][4:0]` (rule R150). -/
def execShl (o : WithoutLiteral) (s : State) : Answer State :=
  writeResult o.rc (s.readReg o.ra <<< registerCount (s.readReg o.rb)) s

/-- SHLC: `x[rc] <- x[ra] << lit[4:0]` (rule R151). -/
def execShlc (o : WithLiteral) (s : State) : Answer State :=
  writeResult o.rc (s.readReg o.ra <<< literalCount o.lit) s

/-- SHR: `x[rc] <- x[ra] >>u x[rb][4:0]` (rule R152). -/
def execShr (o : WithoutLiteral) (s : State) : Answer State :=
  writeResult o.rc (s.readReg o.ra >>> registerCount (s.readReg o.rb)) s

/-- SHRC: `x[rc] <- x[ra] >>u lit[4:0]` (rule R153). -/
def execShrc (o : WithLiteral) (s : State) : Answer State :=
  writeResult o.rc (s.readReg o.ra >>> literalCount o.lit) s

/-- SRA: `x[rc] <- x[ra] >>s x[rb][4:0]` (rule R154). -/
def execSra (o : WithoutLiteral) (s : State) : Answer State :=
  writeResult o.rc (BitVec.sshiftRight (s.readReg o.ra) (registerCount (s.readReg o.rb))) s

/-- SRAC: `x[rc] <- x[ra] >>s lit[4:0]` (rule R155). -/
def execSrac (o : WithLiteral) (s : State) : Answer State :=
  writeResult o.rc (BitVec.sshiftRight (s.readReg o.ra) (literalCount o.lit)) s

end Sys2Proof.Machine
end

