-- ==== Sys2Proof/Machine/System.lean ====
section
/-! DEFINITION. The privileged opcode 0x00 (46_system.md). -/

namespace Sys2Proof.Machine

/-- Opcode 0x00: in user mode IllegalInstruction is raised; in supervisor mode it is an instruction of the
implementation, of which the source gives nothing, and PRIV_INSTRUCTIONS is empty here (rule R180, D15; assumption
log 18). -/
def execPriv (bits : BitVec 26) (s : State) : Answer State :=
  if s.supervisor then .refused (.privilegedImplementationDefined bits)
  else raise .illegalInstruction s

end Sys2Proof.Machine
end

