-- ==== Sys2Proof/Machine/Dispatch.lean ====
section
/-! DEFINITION. Which meaning each instruction has: one arm per constructor of Instr. -/

namespace Sys2Proof.Machine

/-- The meaning of each instruction (rule R13 (5)). -/
def exec (i : Instr) (s : State) : Host.Outcome State Fault Refusal :=
  match i with
  | .add o => Sys2Proof.Machine.execAdd o s
  | .addc o => Sys2Proof.Machine.execAddc o s
  | .and o => Sys2Proof.Machine.execAnd o s
  | .andc o => Sys2Proof.Machine.execAndc o s
  | .beq o => Sys2Proof.Machine.execBeq o s
  | .bne o => Sys2Proof.Machine.execBne o s
  | .cmpeq o => Sys2Proof.Machine.execCmpeq o s
  | .cmpeqc o => Sys2Proof.Machine.execCmpeqc o s
  | .cmple o => Sys2Proof.Machine.execCmple o s
  | .cmplec o => Sys2Proof.Machine.execCmplec o s
  | .cmplt o => Sys2Proof.Machine.execCmplt o s
  | .cmpltc o => Sys2Proof.Machine.execCmpltc o s
  | .div o => Sys2Proof.Machine.execDiv o s
  | .divc o => Sys2Proof.Machine.execDivc o s
  | .jmp o => Sys2Proof.Machine.execJmp o s
  | .ld o => Sys2Proof.Machine.execLd o s
  | .ldr o => Sys2Proof.Machine.execLdr o s
  | .mul o => Sys2Proof.Machine.execMul o s
  | .mulc o => Sys2Proof.Machine.execMulc o s
  | .or o => Sys2Proof.Machine.execOr o s
  | .orc o => Sys2Proof.Machine.execOrc o s
  | .shl o => Sys2Proof.Machine.execShl o s
  | .shlc o => Sys2Proof.Machine.execShlc o s
  | .shr o => Sys2Proof.Machine.execShr o s
  | .shrc o => Sys2Proof.Machine.execShrc o s
  | .sra o => Sys2Proof.Machine.execSra o s
  | .srac o => Sys2Proof.Machine.execSrac o s
  | .sub o => Sys2Proof.Machine.execSub o s
  | .subc o => Sys2Proof.Machine.execSubc o s
  | .st o => Sys2Proof.Machine.execSt o s
  | .xor o => Sys2Proof.Machine.execXor o s
  | .xorc o => Sys2Proof.Machine.execXorc o s
  | .priv b => Sys2Proof.Machine.execPriv b s

end Sys2Proof.Machine
end

