-- ==== Sys2Proof/Machine/Step.lean ====
section
/-! DEFINITION. One step of the machine (rule R13), and the host's way of placing an instruction where it is fetched. -/

namespace Sys2Proof.Machine

/-- One step: an interrupt taken at this boundary, or one instruction fetched, decoded and executed (rule R13). -/
def step (s : State) : Host.Outcome State Fault Refusal := stepWith exec s

/-- The instruction whose bits are `w` (bits from `nbits` up being zero) placed where `step` fetches (assumption
log 25). -/
def State.withFetchWord (s : State) (nbits w : Nat) : State :=
  placeFetchWord s (BitVec.ofNat 32 (w % 2 ^ nbits))

end Sys2Proof.Machine
end

