-- ==== Sys2Proof/Safety.lean ====
section
/-! DEFINITION. The terms statements about the machine use: what an instruction may change and what it leaves, what
counts as a safe step, and the invariants of the machine. -/

namespace Sys2Proof.Machine

/-- Every register reads as before but `x[rc]`, which holds `v`; register 31 reads 0 (rules R8, R21). -/
def WritesRegister (s t : State) (rc : RegNum) (v : Word) : Prop :=
  ∀ r, t.readReg r = if r = 31#5 then 0#32 else if r = rc then v else s.readReg r

/-- Every register reads as before. -/
def KeepsRegisters (s t : State) : Prop := ∀ r, t.readReg r = s.readReg r

/-- Every byte of memory reads as before. -/
def KeepsMemory (s t : State) : Prop :=
  ∀ a, Memory.readByte t.mem a = Memory.readByte s.mem a

/-- The four bytes at `a` hold the word `v`, little-endian, and every byte outside them reads as before (rule R51). -/
def StoresWord (s t : State) (a v : Word) : Prop :=
  (∀ i < 4, Memory.readByte t.mem (a.toNat + i) = some (leByte v i)) ∧
  ∀ b, b < a.toNat ∨ a.toNat + 4 ≤ b → Memory.readByte t.mem b = Memory.readByte s.mem b

/-- The whole effect of an instruction that only computes: `x[rc]` holds `v`, the pc is the updated PC, and nothing else
changes (rule R28). -/
def OnlyResult (s t : State) (rc : RegNum) (v : Word) : Prop :=
  WritesRegister s t rc v ∧ t.pc = pcInc s.pc ∧ KeepsMemory s t ∧ t.interrupts = s.interrupts

/-- The whole effect of taking an exception of kind `k` at `s`: XP holds the updated PC, the pc is the vector in
supervisor mode, and nothing else changes (rule R206). -/
def EntersHandler (s t : State) (k : ExcKind) : Prop :=
  WritesRegister s t 30#5 (pcInc s.pc) ∧ t.pc = vectorPc k ∧ KeepsMemory s t ∧ t.interrupts = s.interrupts

/-- The memory holds the word `w` at the address the machine fetches from (rules R10, R33). -/
abbrev FetchesWord (s : State) (w : Word) : Prop :=
  Memory.readWord s.mem (fetchAddress s.pc).toNat = some w

/-- The program counter is a multiple of 4 (rule R25). -/
abbrev PcAligned (s : State) : Prop := s.pc.extractLsb' 0 2 = 0#2

/-- What holds of every state of the machine between steps: the program counter is a multiple of 4 (rule R25) and the
memory has its canonical form (rule R31). -/
abbrev Inv (s : State) : Prop := PcAligned s ∧ Memory.wf s.mem = true

/-- The same state in the other mode: the Supervisor bit complemented (rule R205). -/
def State.toggleMode (s : State) : State := s.setPc (s.pc ^^^ 0x80000000#32)

/-- A step is safe when it ends in a next state: neither a fault nor a refusal. -/
def SafeStep (s : State) : Prop := ∃ t, step s = .next t

end Sys2Proof.Machine
end

