-- ==== Sys2Proof/Certificates/Slice0/Obligations.lean ====
section
/-! DEFINITION. The statements for the provers, from the numbered rules of spec/. -/

open Sys2Proof Sys2Proof.Machine

/-! ### Shapes shared by the statements -/

/-- The word `opcode<<26 | rc<<21 | ra<<16 | rb<<11` of rule R82, as arithmetic. -/
def Sys2Proof.Certificates.registerWord (opcode : Nat) (rc ra rb : RegNum) : Word :=
  BitVec.ofNat 32 (opcode * 2 ^ 26 + rc.toNat * 2 ^ 21 + ra.toNat * 2 ^ 16 + rb.toNat * 2 ^ 11)

/-- The word `opcode<<26 | rc<<21 | ra<<16 | lit` of rule R82, as arithmetic. -/
def Sys2Proof.Certificates.literalWord (opcode : Nat) (rc ra : RegNum) (lit : Literal) : Word :=
  BitVec.ofNat 32 (opcode * 2 ^ 26 + rc.toNat * 2 ^ 21 + ra.toNat * 2 ^ 16 + lit.toNat)

/-- For every choice of registers and in every state: the instruction completes, it writes to `x[rc]` one value, which is
related by `P` to the old `x[ra]` and `x[rb]`, and it changes no other register, no memory and no pending interrupt. The
unused bits are zero; that other values make no difference is UnusedBitsDoNotMatter, and where the pc goes is
SequentialAdvanceWrapsIn31Bits. -/
def Sys2Proof.Certificates.RegisterForm (mk : WithoutLiteral → Instr) (P : Word → Word → Word → Prop) : Prop :=
  ∀ (rc ra rb : RegNum) (s : State),
    ∃ t v, exec (mk ⟨rc, ra, rb, 0#11⟩) s = .next t ∧ WritesRegister s t rc v ∧ KeepsMemory s t ∧
      t.interrupts = s.interrupts ∧ P (s.readReg ra) (s.readReg rb) v

/-- The same for a literal form; `P` relates the old `x[ra]`, the literal and the value. -/
def Sys2Proof.Certificates.LiteralForm (mk : WithLiteral → Instr) (P : Word → Literal → Word → Prop) : Prop :=
  ∀ (o : WithLiteral) (s : State),
    ∃ t v, exec (mk o) s = .next t ∧ WritesRegister s t o.rc v ∧ KeepsMemory s t ∧ t.interrupts = s.interrupts ∧
      P (s.readReg o.ra) o.lit v

open Sys2Proof.Certificates

/-! ### Encoding -/

/-- Every instruction is read back from its own word, with every operand field at every value (rules R82 to R84;
the bit positions are the spec's decision D1, assumption log 1). -/
def Obligations.DecodeOfEncode : Prop :=
  ∀ i : Instr, decode (encode i) = .ok i

/-- A word that decodes is the word of the instruction it decodes to: no bit is dropped (rules R82 to R84, D1; assumption
log 1). -/
def Obligations.EncodeOfDecode : Prop :=
  ∀ (w : Word) (i : Instr), decode w = .ok i → encode i = w

/-- The words that rules R80 to R83 compose, opcode by opcode, decode to their instruction. The bit positions are the
spec's decision D1 (assumption log 1). -/
def Obligations.ComposedWordsDecode : Prop :=
  (∀ rc ra rb : RegNum,
    decode (registerWord 0x20 rc ra rb) = .ok (.add ⟨rc, ra, rb, 0#11⟩) ∧
    decode (registerWord 0x21 rc ra rb) = .ok (.sub ⟨rc, ra, rb, 0#11⟩) ∧
    decode (registerWord 0x22 rc ra rb) = .ok (.mul ⟨rc, ra, rb, 0#11⟩) ∧
    decode (registerWord 0x23 rc ra rb) = .ok (.div ⟨rc, ra, rb, 0#11⟩) ∧
    decode (registerWord 0x24 rc ra rb) = .ok (.cmpeq ⟨rc, ra, rb, 0#11⟩) ∧
    decode (registerWord 0x25 rc ra rb) = .ok (.cmplt ⟨rc, ra, rb, 0#11⟩) ∧
    decode (registerWord 0x26 rc ra rb) = .ok (.cmple ⟨rc, ra, rb, 0#11⟩) ∧
    decode (registerWord 0x28 rc ra rb) = .ok (.and ⟨rc, ra, rb, 0#11⟩) ∧
    decode (registerWord 0x29 rc ra rb) = .ok (.or ⟨rc, ra, rb, 0#11⟩) ∧
    decode (registerWord 0x2A rc ra rb) = .ok (.xor ⟨rc, ra, rb, 0#11⟩) ∧
    decode (registerWord 0x2C rc ra rb) = .ok (.shl ⟨rc, ra, rb, 0#11⟩) ∧
    decode (registerWord 0x2D rc ra rb) = .ok (.shr ⟨rc, ra, rb, 0#11⟩) ∧
    decode (registerWord 0x2E rc ra rb) = .ok (.sra ⟨rc, ra, rb, 0#11⟩)) ∧
  (∀ (rc ra : RegNum) (lit : Literal),
    decode (literalWord 0x18 rc ra lit) = .ok (.ld ⟨rc, ra, lit⟩) ∧
    decode (literalWord 0x19 rc ra lit) = .ok (.st ⟨rc, ra, lit⟩) ∧
    decode (literalWord 0x1B rc ra lit) = .ok (.jmp ⟨rc, ra, lit⟩) ∧
    decode (literalWord 0x1D rc ra lit) = .ok (.beq ⟨rc, ra, lit⟩) ∧
    decode (literalWord 0x1E rc ra lit) = .ok (.bne ⟨rc, ra, lit⟩) ∧
    decode (literalWord 0x1F rc ra lit) = .ok (.ldr ⟨rc, ra, lit⟩) ∧
    decode (literalWord 0x30 rc ra lit) = .ok (.addc ⟨rc, ra, lit⟩) ∧
    decode (literalWord 0x31 rc ra lit) = .ok (.subc ⟨rc, ra, lit⟩) ∧
    decode (literalWord 0x32 rc ra lit) = .ok (.mulc ⟨rc, ra, lit⟩) ∧
    decode (literalWord 0x33 rc ra lit) = .ok (.divc ⟨rc, ra, lit⟩) ∧
    decode (literalWord 0x34 rc ra lit) = .ok (.cmpeqc ⟨rc, ra, lit⟩) ∧
    decode (literalWord 0x35 rc ra lit) = .ok (.cmpltc ⟨rc, ra, lit⟩) ∧
    decode (literalWord 0x36 rc ra lit) = .ok (.cmplec ⟨rc, ra, lit⟩) ∧
    decode (literalWord 0x38 rc ra lit) = .ok (.andc ⟨rc, ra, lit⟩) ∧
    decode (literalWord 0x39 rc ra lit) = .ok (.orc ⟨rc, ra, lit⟩) ∧
    decode (literalWord 0x3A rc ra lit) = .ok (.xorc ⟨rc, ra, lit⟩) ∧
    decode (literalWord 0x3C rc ra lit) = .ok (.shlc ⟨rc, ra, lit⟩) ∧
    decode (literalWord 0x3D rc ra lit) = .ok (.shrc ⟨rc, ra, lit⟩) ∧
    decode (literalWord 0x3E rc ra lit) = .ok (.srac ⟨rc, ra, lit⟩)) ∧
  ∀ b : BitVec 26, decode (BitVec.ofNat 32 b.toNat) = .ok (.priv b)

/-- The decoder rejects exactly the words whose opcode is one of the 31 that rule R87 lists (the opcode's place
is the spec's decision D1, assumption log 1). -/
def Obligations.RejectsExactlyUnassignedOpcodes : Prop :=
  ∀ w : Word, (∃ e, decode w = .error e) ↔
    (1 ≤ w.toNat / 2 ^ 26 ∧ w.toNat / 2 ^ 26 ≤ 0x17) ∨
      w.toNat / 2 ^ 26 ∈ [0x1A, 0x1C, 0x27, 0x2B, 0x2F, 0x37, 0x3B, 0x3F]

/-- Words the spec writes out, one or more of each family, decode as the opcode map says (rules R82, R83, R87). CMPLTC's
stands in 95_test_vectors.md section 2.3, ORC's in 2.4, SRA's in 2.5, BEQ's in 2.8, the others in 2.1. Their bit positions
are the spec's decision D1 (assumption log 1). -/
def Obligations.SpecWordsDecode : Prop :=
  decode 0x80611000#32 = .ok (.add ⟨3#5, 1#5, 2#5, 0#11⟩) ∧
  decode 0xC041FFFF#32 = .ok (.addc ⟨2#5, 1#5, 0xFFFF#16⟩) ∧
  decode 0xD4410000#32 = .ok (.cmpltc ⟨2#5, 1#5, 0#16⟩) ∧
  decode 0xE4418000#32 = .ok (.orc ⟨2#5, 1#5, 0x8000#16⟩) ∧
  decode 0xB8611000#32 = .ok (.sra ⟨3#5, 1#5, 2#5, 0#11⟩) ∧
  decode 0x6441FFFC#32 = .ok (.st ⟨2#5, 1#5, 0xFFFC#16⟩) ∧
  decode 0x7C400003#32 = .ok (.ldr ⟨2#5, 0#5, 3#16⟩) ∧
  decode 0x77E10002#32 = .ok (.beq ⟨31#5, 1#5, 2#16⟩) ∧
  decode 0x6FFC0000#32 = .ok (.jmp ⟨31#5, 28#5, 0#16⟩) ∧
  decode 0x00000000#32 = .ok (.priv 0#26) ∧
  decode 0xFFFFFFFF#32 = .error (.illegalOpcode 0x3F#6)

/-- Two instruction words that differ only in bits rule R89 calls unused or ignored do the same in every state. That
all three kinds of bits are ignored is the spec's decision D8 (assumption log 13); their places are D1 (log 1). -/
def Obligations.UnusedBitsDoNotMatter : Prop :=
  ∀ (w w' : Word) (i i' : Instr) (s : State), decode w = .ok i → decode w' = .ok i' →
    (w ^^^ w') &&& ~~~i.shouldBeZero = 0#32 → exec i s = exec i' s

/-- The strict check is the opcode table's `should_be_zero` column (rule R89; the places of the bits are the spec's decision
D1, assumption log 1). -/
def Obligations.WellFormedIsShouldBeZero : Prop :=
  ∀ (w : Word) (i : Instr), decode w = .ok i →
    (i.wellFormed = true ↔ w &&& i.shouldBeZero = 0#32)

/-- The assembler's literal is found for every label a multiple of 4 away within the 16-bit range (rule R86) and for no
other: that an assembler rejects those is the spec's decision D24 (assumption log 31). It takes BEQ and BNE, in either
mode, to the label (rule R170; across the ends of the 31-bit space by the spec's resolution C6, log 24), and LDR to it from
every address but the last word of the space (rule R161): there the updated PC wraps to 0, the sum is negative for every
label that has a literal, and where LDR reads is open (LDR_WRAP, D11, log 12). `p` is a program counter at the instruction;
addresses are below 2^31. -/
def Obligations.LabelLiteralReachesLabel : Prop :=
  ∀ (label : Nat) (p : Word), label < 2 ^ 31 →
    ((∃ lit, labelLiteral label (addrPart p).toNat = some lit) ↔
      ((label : Int) - (addrPart p).toNat) % 4 = 0 ∧
      ((addrPart p).toNat : Int) - 131068 ≤ label ∧ (label : Int) ≤ (addrPart p).toNat + 131072) ∧
    ∀ lit, labelLiteral label (addrPart p).toNat = some lit →
      (addrPart (pcTarget (pcInc p) (longwordOffset lit))).toNat = label ∧
      supBit (pcTarget (pcInc p) (longwordOffset lit)) = supBit p ∧
      ((addrPart p).toNat + 4 < 2 ^ 31 → (ldrAddress (pcInc p) lit).toNat = label)

/-! ### Instructions that compute -/

/-- ADD, ADDC, SUB, SUBC, MUL, MULC give the low 32 bits of the true result, the same for signed and unsigned operands,
with no other effect and no exception; the literal of these and of DIVC is sign-extended (rule R118). -/
def Obligations.ArithmeticGivesLow32Bits : Prop :=
  RegisterForm .add (fun a b v =>
    v.toNat = (a.toNat + b.toNat) % 2 ^ 32 ∧ v = BitVec.ofInt 32 (a.toInt + b.toInt)) ∧
  LiteralForm .addc (fun a lit v => v = BitVec.ofInt 32 (a.toInt + lit.toInt)) ∧
  RegisterForm .sub (fun a b v =>
    v = BitVec.ofInt 32 ((a.toNat : Int) - b.toNat) ∧ v = BitVec.ofInt 32 (a.toInt - b.toInt)) ∧
  LiteralForm .subc (fun a lit v => v = BitVec.ofInt 32 (a.toInt - lit.toInt)) ∧
  RegisterForm .mul (fun a b v =>
    v.toNat = (a.toNat * b.toNat) % 2 ^ 32 ∧ v = BitVec.ofInt 32 (a.toInt * b.toInt)) ∧
  LiteralForm .mulc (fun a lit v => v = BitVec.ofInt 32 (a.toInt * lit.toInt)) ∧
  ∀ (rc ra rb : RegNum) (lit : Literal) (s : State), (s.readReg rb).toInt = lit.toInt →
    exec (.divc ⟨rc, ra, lit⟩) s = exec (.div ⟨rc, ra, rb, 0#11⟩) s

/-- DIV and DIVC complete on all operands with no effect but the quotient; for a divisor that is not zero, and but for
-2^31 by -1, its magnitude is that of the exact quotient rounded down, and it is negative exactly when it is not zero
and the signs of the operands differ (rule R119). Signed operands and truncation toward zero are the spec's decision D5
(assumption log 10); in the two corners the value is free (assumption log 8, 9). -/
def Obligations.DivisionTruncatesTowardZero : Prop :=
  RegisterForm .div (fun a b v => b ≠ 0#32 → ¬(a.toInt = -2 ^ 31 ∧ b.toInt = -1) →
    v.toInt.natAbs = a.toInt.natAbs / b.toInt.natAbs ∧
    (v.toInt < 0 ↔ v.toInt.natAbs ≠ 0 ∧ ¬(a.toInt < 0 ↔ b.toInt < 0))) ∧
  LiteralForm .divc (fun a lit v => lit ≠ 0#16 → ¬(a.toInt = -2 ^ 31 ∧ lit.toInt = -1) →
    v.toInt.natAbs = a.toInt.natAbs / lit.toInt.natAbs ∧
    (v.toInt < 0 ↔ v.toInt.natAbs ≠ 0 ∧ ¬(a.toInt < 0 ↔ lit.toInt < 0)))

/-- CMPEQ, CMPEQC, CMPLT, CMPLTC, CMPLE, CMPLEC write 1 where the relation holds and 0 otherwise; the order is that of
signed quantities, the literal is sign-extended (rule R136). -/
def Obligations.CompareWritesTruthValue : Prop :=
  RegisterForm .cmpeq (fun a b v => (a = b → v.toNat = 1) ∧ (a ≠ b → v.toNat = 0)) ∧
  LiteralForm .cmpeqc (fun a lit v => (a.toInt = lit.toInt → v.toNat = 1) ∧ (a.toInt ≠ lit.toInt → v.toNat = 0)) ∧
  RegisterForm .cmplt (fun a b v => (a.toInt < b.toInt → v.toNat = 1) ∧ (b.toInt ≤ a.toInt → v.toNat = 0)) ∧
  LiteralForm .cmpltc (fun a lit v => (a.toInt < lit.toInt → v.toNat = 1) ∧ (lit.toInt ≤ a.toInt → v.toNat = 0)) ∧
  RegisterForm .cmple (fun a b v => (a.toInt ≤ b.toInt → v.toNat = 1) ∧ (b.toInt < a.toInt → v.toNat = 0)) ∧
  LiteralForm .cmplec (fun a lit v => (a.toInt ≤ lit.toInt → v.toNat = 1) ∧ (lit.toInt < a.toInt → v.toNat = 0))

/-- AND, ANDC, OR, ORC, XOR, XORC: bit `i` of the result is the Boolean function of bit `i` of the operands; bits 31:16
of a literal operand are copies of its bit 15 (rule R146). -/
def Obligations.LogicalIsBitwise : Prop :=
  RegisterForm .and (fun a b v => ∀ i < 32, v.getLsbD i = (a.getLsbD i && b.getLsbD i)) ∧
  LiteralForm .andc (fun a lit v => ∀ i < 32, v.getLsbD i = (a.getLsbD i && lit.getLsbD (min i 15))) ∧
  RegisterForm .or (fun a b v => ∀ i < 32, v.getLsbD i = (a.getLsbD i || b.getLsbD i)) ∧
  LiteralForm .orc (fun a lit v => ∀ i < 32, v.getLsbD i = (a.getLsbD i || lit.getLsbD (min i 15))) ∧
  RegisterForm .xor (fun a b v => ∀ i < 32, v.getLsbD i = (a.getLsbD i ^^ b.getLsbD i)) ∧
  LiteralForm .xorc (fun a lit v => ∀ i < 32, v.getLsbD i = (a.getLsbD i ^^ lit.getLsbD (min i 15)))

/-- SHL, SHLC, SHR, SHRC, SRA, SRAC shift by the low five bits of the count operand: left, filling with zeroes; right,
filling with zeroes; right, filling with bit 31, that is, rounding down (rules R156, R154). -/
def Obligations.ShiftByFiveBitCount : Prop :=
  RegisterForm .shl (fun a b v => v.toNat = a.toNat * 2 ^ (b.toNat % 32) % 2 ^ 32) ∧
  LiteralForm .shlc (fun a lit v => v.toNat = a.toNat * 2 ^ (lit.toNat % 32) % 2 ^ 32) ∧
  RegisterForm .shr (fun a b v => v.toNat = a.toNat / 2 ^ (b.toNat % 32)) ∧
  LiteralForm .shrc (fun a lit v => v.toNat = a.toNat / 2 ^ (lit.toNat % 32)) ∧
  RegisterForm .sra (fun a b v => v.toInt = a.toInt / 2 ^ (b.toNat % 32)) ∧
  LiteralForm .srac (fun a lit v => v.toInt = a.toInt / 2 ^ (lit.toNat % 32))

/-! ### Load and store -/

/-- LD at an effective address `(x[ra] + sext(lit)) mod 2^32` that is a multiple of 4 and whose word is `w` completes
with `w` in `x[rc]` and no other effect; all 32 bits of the address count (rules R160, R163 (a); that they
count is the spec's decision D20, assumption log 22; that every such address is memory is the model's, log 6). -/
def Obligations.LoadReadsTheWordAtItsAddress : Prop :=
  ∀ (o : WithLiteral) (s : State) (ea w : Word), ea = BitVec.ofInt 32 ((s.readReg o.ra).toInt + o.lit.toInt) →
    ea.toNat % 4 = 0 → Memory.readWord s.mem ea.toNat = some w →
    ∃ t, exec (.ld o) s = .next t ∧ OnlyResult s t o.rc w

/-- LDR reads the word at the address part of the updated PC plus 4 times the signed literal, in either mode, whatever
its Ra field, and has no other effect (rules R161, R163 (b)). Where that sum leaves 0 to 2^31 - 1 the address is the sum
modulo 2^31 or modulo 2^32 (D11, assumption log 12): then, if both words are there, one of them is what it reads. That
Ra is ignored is rule R89, that every address is memory is the model's choice (log 6). -/
def Obligations.LoadRelativeReadsTheWord : Prop :=
  ∀ (o : WithLiteral) (s : State) (sum : Int),
    sum = (((s.pc.toNat + 4) % 2 ^ 31 : Nat) : Int) + 4 * o.lit.toInt →
    (0 ≤ sum → sum < 2 ^ 31 → ∀ w, Memory.readWord s.mem sum.toNat = some w →
      ∃ t, exec (.ldr o) s = .next t ∧ OnlyResult s t o.rc w) ∧
    (sum < 0 ∨ 2 ^ 31 ≤ sum → ∀ w31 w32, Memory.readWord s.mem (sum % 2 ^ 31).toNat = some w31 →
      Memory.readWord s.mem (sum % 2 ^ 32).toNat = some w32 → s.pc.toNat % 4 = 0 →
      ∃ t w, exec (.ldr o) s = .next t ∧ OnlyResult s t o.rc w ∧ (w = w31 ∨ w = w32))

/-- ST at an effective address that is a multiple of 4 completes: the four bytes there hold `x[rc]`, every other byte
of memory and every register are unchanged, and the pc is the updated PC (rule R162). Which byte
of `x[rc]` each address holds is the spec's choice of a little-endian order, D2 (assumption log 2); that all 32 bits of the
address count is its decision D20 (log 22); that every such address is memory is the model's choice (log 6). -/
def Obligations.StoreWritesTheWordAtItsAddress : Prop :=
  ∀ (o : WithLiteral) (s : State) (ea : Word), ea = BitVec.ofInt 32 ((s.readReg o.ra).toInt + o.lit.toInt) →
    ea.toNat % 4 = 0 →
    ∃ t, exec (.st o) s = .next t ∧ StoresWord s t ea (s.readReg o.rc) ∧ KeepsRegisters s t ∧
      t.pc = pcInc s.pc ∧ t.interrupts = s.interrupts

/-- LD and ST at an effective address that is no multiple of 4: both are refused, or both act on the word at the address
with bits 1:0 cleared (the two values of MISALIGNED_DATA: rule R54 (d), D3; assumption log 7). Where they act: which
byte of the stored word each address holds is the spec's choice of a little-endian order, D2 (log 2); that all 32 bits of
the address count is its decision D20 (log 22); that every masked address is memory, so that ST completes, is the model's
choice (log 6). -/
def Obligations.MisalignedAccessIsRefusedOrMasked : Prop :=
  (∀ (o : WithLiteral) (s : State), (baseDisplacement s o).toNat % 4 ≠ 0 →
    exec (.ld o) s = .refused (.misalignedData (baseDisplacement s o)) ∧
    exec (.st o) s = .refused (.misalignedData (baseDisplacement s o))) ∨
  (∀ (o : WithLiteral) (s : State) (a : Word), (baseDisplacement s o).toNat % 4 ≠ 0 →
    a.toNat = (baseDisplacement s o).toNat / 4 * 4 →
    (∀ w, Memory.readWord s.mem a.toNat = some w → ∃ t, exec (.ld o) s = .next t ∧ OnlyResult s t o.rc w) ∧
    ∃ t, exec (.st o) s = .next t ∧ StoresWord s t a (s.readReg o.rc) ∧ KeepsRegisters s t ∧
      t.pc = pcInc s.pc ∧ t.interrupts = s.interrupts)

/-- LD of a word with a byte that nothing has written faults (the model's choice where the spec gives memory no reset
contents: assumption log 5). -/
def Obligations.UnwrittenLoadFaults : Prop :=
  ∀ (o : WithLiteral) (s : State), (baseDisplacement s o).toNat % 4 = 0 →
    (∃ i < 4, Memory.readByte s.mem ((baseDisplacement s o).toNat + i) = none) →
    exec (.ld o) s = .fault (.unwrittenMemory (baseDisplacement s o).toNat)

/-! ### Control transfer -/

/-- BEQ, where Ra and Rc are not the same register or are register 31: it completes, the link `npc` is in `x[rc]`
whether or not the branch is taken, and the pc is `npc` plus 4 times the signed literal on bits 30:0 if `x[ra]` is zero,
and `npc` otherwise; the Supervisor bit stays (rule R170; that the sum wraps in 31 bits is the spec's resolution C6,
assumption log 24, and that the link carries the Supervisor bit its decision D21, log 23). -/
def Obligations.BeqBranchesOnZero : Prop :=
  ∀ (o : WithLiteral) (s : State), o.ra ≠ o.rc ∨ o.ra = 31#5 →
    ∃ t, exec (.beq o) s = .next t ∧ WritesRegister s t o.rc (pcInc s.pc) ∧ KeepsMemory s t ∧
      t.interrupts = s.interrupts ∧ t.supervisor = s.supervisor ∧
      (s.readReg o.ra = 0#32 →
        ((addrPart t.pc).toNat : Int) = ((addrPart s.pc).toNat + 4 + 4 * o.lit.toInt) % 2 ^ 31) ∧
      (s.readReg o.ra ≠ 0#32 → t.pc = pcInc s.pc)

/-- BNE, where Ra and Rc are not the same register or are register 31: as BEQ, taken where `x[ra]` is not zero
(rule R171; C6 and D21 as for BEQ, assumption log 24, 23). -/
def Obligations.BneBranchesOnNonZero : Prop :=
  ∀ (o : WithLiteral) (s : State), o.ra ≠ o.rc ∨ o.ra = 31#5 →
    ∃ t, exec (.bne o) s = .next t ∧ WritesRegister s t o.rc (pcInc s.pc) ∧ KeepsMemory s t ∧
      t.interrupts = s.interrupts ∧ t.supervisor = s.supervisor ∧
      (s.readReg o.ra ≠ 0#32 →
        ((addrPart t.pc).toNat : Int) = ((addrPart s.pc).toNat + 4 + 4 * o.lit.toInt) % 2 ^ 31) ∧
      (s.readReg o.ra = 0#32 → t.pc = pcInc s.pc)

/-- BEQ and BNE where Ra and Rc are the same register other than 31: they complete, with the link written; what they
test is the register's old value, or the link, and it is the same choice for all of them (rule R175: the two readings of
BRANCH_RA_EQ_RC; D10, C8; assumption log 11). -/
def Obligations.BranchOnItsOwnLink : Prop :=
  ∃ linkIsTested : Bool, ∀ (o : WithLiteral) (s : State) (tested : Word), o.ra = o.rc → o.ra ≠ 31#5 →
    tested = (if linkIsTested = true then pcInc s.pc else s.readReg o.ra) →
    (∃ t, exec (.beq o) s = .next t ∧ WritesRegister s t o.rc (pcInc s.pc) ∧ KeepsMemory s t ∧
      t.interrupts = s.interrupts ∧
      t.pc = if tested = 0#32 then pcTarget (pcInc s.pc) (longwordOffset o.lit) else pcInc s.pc) ∧
    (∃ t, exec (.bne o) s = .next t ∧ WritesRegister s t o.rc (pcInc s.pc) ∧ KeepsMemory s t ∧
      t.interrupts = s.interrupts ∧
      t.pc = if tested = 0#32 then pcInc s.pc else pcTarget (pcInc s.pc) (longwordOffset o.lit))

/-- JMP completes: the link is in `x[rc]`, the address is that of the old `x[ra]` with bits 1:0 dropped, the Supervisor
bit stays set only if bit 31 of `x[ra]` is set too, and the literal does not matter (rule R172; that the
link carries the Supervisor bit is the spec's decision D21, assumption log 23; that the literal is ignored is D8,
log 13). -/
def Obligations.JmpJumpsAndCannotSetSupervisor : Prop :=
  ∀ (o : WithLiteral) (s : State),
    ∃ t, exec (.jmp o) s = .next t ∧ WritesRegister s t o.rc (pcInc s.pc) ∧ KeepsMemory s t ∧
      t.interrupts = s.interrupts ∧
      t.pc.toNat % 2 ^ 31 = (s.readReg o.ra).toNat % 2 ^ 31 / 4 * 4 ∧
      (t.supervisor = true ↔ s.supervisor = true ∧ 2 ^ 31 ≤ (s.readReg o.ra).toNat)

/-! ### Exceptions, interrupts, modes -/

/-- Opcode 0x00 in user mode completes by raising IllegalInstruction: XP holds the updated PC, the pc is VEC_ILLOP in
supervisor mode, nothing else changes, whatever the other 26 bits (rule R180; that the vector is a multiple of 4
is the spec's decision D13, assumption log 15). -/
def Obligations.PrivilegedOpcodeTrapsInUserMode : Prop :=
  ∀ (b : BitVec 26) (s : State), s.supervisor = false →
    ∃ t, exec (.priv b) s = .next t ∧ EntersHandler s t .illegalInstruction ∧
      t.pc.toNat = 2 ^ 31 + 4 * Config.vecIllop.toNat

/-- Opcode 0x00 in supervisor mode is refused by name: the spec gives it no effect, "their form and semantics are
implementation-defined" (rule R180, D15; assumption log 18). -/
def Obligations.PrivilegedOpcodeRefusedInSupervisorMode : Prop :=
  ∀ (b : BitVec 26) (s : State), s.supervisor = true →
    exec (.priv b) s = .refused (.privilegedImplementationDefined b)

/-- Exception entry from user mode, for every kind: XP holds the updated PC, the Supervisor bit is set, the pc is the
vector of the kind, a multiple of 4, and nothing else changes (rules R203, R206; that vectors are multiples of 4 below
2^31 is the spec's decision D13, assumption log 15). -/
def Obligations.ExceptionEntryFromUserMode : Prop :=
  ∀ (k : ExcKind) (s : State), s.supervisor = false →
    ∃ t, raise k s = .next t ∧ EntersHandler s t k ∧ t.supervisor = true ∧ PcAligned t ∧
      (t.readReg xpNum).toNat = (s.pc.toNat + 4) % 2 ^ 31

/-- A word whose opcode is assigned to no instruction raises IllegalInstruction in user mode, and stops the machine in
supervisor mode (rules R181, R212; that these opcodes are illegal is the spec's decision D9, assumption log 14; the
terminal fault is D14, assumption log 17). -/
def Obligations.IllegalOpcodeRaises : Prop :=
  ∀ (s : State) (w : Word) (e : DecodeError), interruptTaken s = none → FetchesWord s w → decode w = .error e →
    (s.supervisor = false →
      ∃ t, step s = .next t ∧ EntersHandler (s.setInterrupts s.interrupts.tail) t .illegalInstruction) ∧
    (s.supervisor = true → step s = .fault (.supervisorException .illegalInstruction))

/-- An interrupt the environment presents at a user-mode boundary is taken before the instruction there: XP holds that
instruction's address plus 4, the instruction has no effect, and the presentation is spent (rules R13 (1), R203, R208;
that the environment chooses freely is the spec's decision D16, assumption log 19). -/
def Obligations.InterruptPreemptsUserInstruction : Prop :=
  ∀ (s : State) (source : Nat) (rest : List (Option Nat)), s.supervisor = false →
    s.interrupts = some source :: rest →
    ∃ t, step s = .next t ∧ EntersHandler (s.setInterrupts rest) t (.interrupt source)

/-- In supervisor mode what the environment presents has no influence and stays pending (rules R205, R212; the list
of the environment's choices is the model's form of D16, assumption log 19). -/
def Obligations.SupervisorModeHoldsInterrupts : Prop :=
  ∀ (s : State) (l : List (Option Nat)), s.supervisor = true →
    step (s.setInterrupts l) = andThen (step s) fun t => .next (t.setInterrupts l)

/-- Where no interrupt is taken and the word at the program counter decodes to an instruction, the step is that
instruction executed; in user mode the environment's choice for this boundary is spent (rule R13; the list of choices
is the model's form of D16, assumption log 19). -/
def Obligations.StepRunsDecodedInstruction : Prop :=
  ∀ (s : State) (w : Word) (i : Instr), interruptTaken s = none → FetchesWord s w → decode w = .ok i →
    step s = exec i (if s.supervisor = true then s else s.setInterrupts s.interrupts.tail)

/-- From whatever a handler did, as long as XP still holds what exception entry at `s` put there, JMP(XP, R31) in
supervisor mode goes on after the trapping word, in user mode, and changes nothing but the pc (rules R203, R213; that the
updated PC wraps in 31 bits is the spec's resolution C6, assumption log 24). -/
def Obligations.TrapReturnsAfterTheWord : Prop :=
  ∀ (k : ExcKind) (s t u : State) (lit : Literal), PcAligned s → raise k s = .next t →
    u.readReg xpNum = t.readReg xpNum →
    ∃ v, exec (.jmp ⟨31#5, xpNum, lit⟩) u = .next v ∧ v.pc = pcInc s.pc ∧ v.supervisor = false ∧
      KeepsRegisters u v ∧ KeepsMemory u v ∧ v.interrupts = u.interrupts

/-- An interrupt handler that still has XP as entry left it returns with SUBC(XP, 4, XP) and JMP(XP, R31) to the
instruction that was interrupted, in user mode (rules R203, R213). The instruction is not at the last word of the 31-bit
space: there the updated PC wraps to 0 and XP - 4 has bit 31 set (C6; assumption log 24). -/
def Obligations.InterruptReturnsToTheInstruction : Prop :=
  ∀ (source : Nat) (s t u : State) (lit : Literal), PcAligned s → (addrPart s.pc).toNat ≠ 0x7FFFFFFC →
    raise (.interrupt source) s = .next t → u.readReg xpNum = t.readReg xpNum →
    ∃ v x, exec (.subc ⟨xpNum, xpNum, 4#16⟩) u = .next v ∧ exec (.jmp ⟨31#5, xpNum, lit⟩) v = .next x ∧
      x.pc = s.pc ∧ x.supervisor = false ∧ (∀ r, r ≠ xpNum → x.readReg r = u.readReg r) ∧ KeepsMemory u x

/-- No step enters supervisor mode but an exception: then XP holds the updated PC, the pc is a vector, and no other
register and no memory has changed (rules R26 (a), R205). -/
def Obligations.SupervisorModeEnteredOnlyByException : Prop :=
  ∀ s t : State, step s = .next t → s.supervisor = false → t.supervisor = true →
    ∃ k, WritesRegister s t 30#5 (pcInc s.pc) ∧ t.pc = vectorPc k ∧ KeepsMemory s t

/-- No step leaves supervisor mode but a JMP whose target register has bit 31 clear (rules R26 (b), (c), R205; the places of
the opcode and of Ra in the word are the spec's decision D1, assumption log 1). -/
def Obligations.SupervisorModeLeftOnlyByJmp : Prop :=
  ∀ s t : State, step s = .next t → s.supervisor = true → t.supervisor = false →
    ∃ w, FetchesWord s w ∧ w.toNat / 2 ^ 26 = 0x1B ∧ (s.readReg (raField w)).toNat < 2 ^ 31

/-- An instruction other than BEQ, BNE, JMP and opcode 0x00 does the same in both modes: it stops for the same reason or
gives the same next state but for the Supervisor bit; and fetch reads the same word (rules R33, R205). -/
def Obligations.InstructionsAreTheSameInBothModes : Prop :=
  (∀ (i : Instr) (s : State), i.opcode ∉ [0x1D#6, 0x1E#6, 0x1B#6, 0x00#6] →
    exec i s.toggleMode = andThen (exec i s) fun t => .next t.toggleMode) ∧
  ∀ s : State, fetch s.toggleMode = fetch s

/-! ### The whole machine -/

/-- An invariant of every step: the program counter stays a multiple of 4 and the memory stays in its canonical form
(rules R25, R31; that the vectors are multiples of 4 is the spec's decision D13, assumption log 15; the canonical form
is the model's). -/
def Obligations.StepKeepsInvariant : Prop :=
  ∀ s t : State, Inv s → step s = .next t → Inv t

/-- The invariant holds after reset. -/
def Obligations.ResetMeetsInvariant : Prop := Inv State.reset

/-- After reset: supervisor mode at address 0, so that no interrupt is taken (rules R35, R207, R240). The values of the
registers and of memory are the model's choices and are not stated here (assumption log 3, 4, 5). -/
def Obligations.ResetStartsAtZeroInSupervisorMode : Prop :=
  State.reset.pc.toNat = 0x80000000 ∧ State.reset.supervisor = true ∧ State.reset.readReg 31#5 = 0#32 ∧
  ∀ l, interruptTaken (State.reset.setInterrupts l) = none

/-- The first step after reset executes, in supervisor mode, the instruction a program placed at location 0, whatever
else the program placed and whatever the registers hold (rule R240). -/
def Obligations.FirstStepRunsLocationZero : Prop :=
  ∀ (s : State) (w : Word) (i : Instr), s.pc = State.reset.pc → Memory.readWord s.mem 0 = some w →
    decode w = .ok i → step s = exec i s ∧ s.supervisor = true

/-- Every instruction but LD, LDR, ST and opcode 0x00 completes in every state (rules R118, R201: none of them is said
to raise an exception). That division completes in its two corners and BEQ and BNE where Ra and Rc coincide is the
model's choice (assumption log 8, 9, 11). -/
def Obligations.OnlyMemoryAndPrivilegedInstructionsStop : Prop :=
  ∀ (i : Instr) (s : State), i.opcode ∉ [0x18#6, 0x1F#6, 0x19#6, 0x00#6] → ∃ t, exec i s = .next t

/-- An instruction that is no control transfer ends with the pc advanced by 4 modulo 2^31, the Supervisor bit kept
(rules R26, R27, decision C6; assumption log 24). -/
def Obligations.SequentialAdvanceWrapsIn31Bits : Prop :=
  ∀ (i : Instr) (s t : State), i.opcode ∉ [0x1D#6, 0x1E#6, 0x1B#6, 0x00#6] → exec i s = .next t →
    t.pc.toNat = s.pc.toNat / 2 ^ 31 * 2 ^ 31 + (s.pc.toNat + 4) % 2 ^ 31

/-- An instruction changes no register but the one its Rc field names, and ST changes none; opcode 0x00, an exception,
changes only XP (rules R28, R36). -/
def Obligations.OnlyTheNamedRegisterChanges : Prop :=
  ∀ (i : Instr) (s t : State), exec i s = .next t → ∀ r,
    (i.opcode = 0x00#6 → r ≠ 30#5 → t.readReg r = s.readReg r) ∧
    (i.opcode = 0x19#6 → t.readReg r = s.readReg r) ∧
    (i.opcode ≠ 0x00#6 → r ≠ rcField (encode i) → t.readReg r = s.readReg r)

/-- Register 31 reads 0 in every state; and an instruction word with 31 in place of the number in its Rc field does the
same as before, the same pc, memory, stop and all, but that no register changes (rule R21; that Rc is
bits 25:21 of the word, rule R82, is the spec's decision D1, assumption log 1). Not for ST, whose Rc names a
source, nor for opcode 0x00, which has no Rc field; BEQ and BNE where Ra and Rc are the same register other than 31 are
BranchOnItsOwnLink. -/
def Obligations.Register31IsABitBucket : Prop :=
  (∀ s : State, s.readReg 31#5 = 0#32) ∧
  ∀ (w : Word) (i i31 : Instr) (s : State), decode w = .ok i → decode (w ||| 0x03E00000#32) = .ok i31 →
    i.opcode ∉ [0x19#6, 0x00#6] →
    (i.opcode ∈ [0x1D#6, 0x1E#6] → raField w ≠ rcField w ∨ raField w = 31#5) →
    exec i31 s = andThen (exec i s) fun t => .next { t with regs := s.regs }

/-- A step that changes any byte of memory executed ST, and changed only the four bytes at the address ST computes:
`x[ra] + sext(lit)` with bits 1:0 cleared (rules R32, R36, R162; that a misaligned ST stores there or not at all is
MISALIGNED_DATA, assumption log 7). -/
def Obligations.OnlyStoreChangesMemory : Prop :=
  ∀ (s t : State) (b : Nat), step s = .next t → Memory.readByte t.mem b ≠ Memory.readByte s.mem b →
    ∃ w o, FetchesWord s w ∧ decode w = .ok (.st o) ∧
      (baseDisplacement s o).toNat / 4 * 4 ≤ b ∧ b < (baseDisplacement s o).toNat / 4 * 4 + 4

/-! ### Memory -/

/-- Bytes and words: byte `i` of a word is bits `8i+7 : 8i`, and four bytes in rising address order make the word
(rule R51; the order is the spec's decision D2, assumption log 2). -/
def Obligations.WordsAreLittleEndian : Prop :=
  (∀ (w : Word) (i : Nat), i < 4 → (leByte w i).toNat = w.toNat / 2 ^ (8 * i) % 2 ^ 8) ∧
  ∀ b0 b1 b2 b3 : Byte,
    (leWord b0 b1 b2 b3).toNat = b0.toNat + 2 ^ 8 * b1.toNat + 2 ^ 16 * b2.toNat + 2 ^ 24 * b3.toNat

/-- After ST, LD at the same address returns the stored word, and a second ST there leaves the second word; a word that
shares no byte with the stored one is as before (rule R60 (a), (b), (c); that every aligned address is memory is the model's
choice, assumption log 6). -/
def Obligations.LoadsSeeTheLastStore : Prop :=
  ∀ (o o' : WithLiteral) (s t : State), exec (.st o) s = .next t → (baseDisplacement s o).toNat % 4 = 0 →
    (baseDisplacement t o' = baseDisplacement s o →
      (∃ u, exec (.ld o') t = .next u ∧ OnlyResult t u o'.rc (s.readReg o.rc)) ∧
      (∃ u, exec (.st o') t = .next u ∧
        Memory.readWord u.mem (baseDisplacement s o).toNat = some (t.readReg o'.rc))) ∧
    ∀ a : Nat, a + 4 ≤ (baseDisplacement s o).toNat ∨ (baseDisplacement s o).toNat + 4 ≤ a →
      Memory.readWord t.mem a = Memory.readWord s.mem a

/-- A word stored where the next instruction is fetched is the instruction the next step executes (rule R63, the spec's
decision D12; assumption log 21). -/
def Obligations.StoredWordIsFetchedNext : Prop :=
  ∀ (o : WithLiteral) (s t : State) (i : Instr), exec (.st o) s = .next t →
    baseDisplacement s o = fetchAddress (pcInc s.pc) → PcAligned s → interruptTaken t = none →
    decode (s.readReg o.rc) = .ok i →
    step t = exec i (if t.supervisor = true then t else t.setInterrupts t.interrupts.tail)
end

