-- ==== Sys2Proof/Laws/Decode.lean ====
section
/-! SUPPORT. Fields of composed words, and words composed of their own fields (rule R82). -/

namespace Sys2Proof

@[simp] theorem opcodeField_composeWithoutLiteral (op : BitVec 6) (o : WithoutLiteral) :
    opcodeField (composeWithoutLiteral op o) = op := by
  apply BitVec.eq_of_getLsbD_eq
  intro i hi
  simp only [opcodeField, composeWithoutLiteral, BitVec.getLsbD_extractLsb', BitVec.getLsbD_append]
  have : ¬26 + i < 11 ∧ ¬26 + i - 11 < 5 ∧ ¬26 + i - 11 - 5 < 5 ∧ ¬26 + i - 11 - 5 - 5 < 5 ∧
    26 + i - 11 - 5 - 5 - 5 = i := by omega
  simp [hi, this]

@[simp] theorem opcodeField_composeWithLiteral (op : BitVec 6) (o : WithLiteral) :
    opcodeField (composeWithLiteral op o) = op := by
  apply BitVec.eq_of_getLsbD_eq
  intro i hi
  simp only [opcodeField, composeWithLiteral, BitVec.getLsbD_extractLsb', BitVec.getLsbD_append]
  have : ¬26 + i < 16 ∧ ¬26 + i - 16 < 5 ∧ ¬26 + i - 16 - 5 < 5 ∧ 26 + i - 16 - 5 - 5 = i := by omega
  simp [hi, this]

/-- The fields of a Without Literal word are the operands it was composed of. -/
@[simp] theorem withoutLiteralFields_compose (op : BitVec 6) (o : WithoutLiteral) :
    withoutLiteralFields (composeWithoutLiteral op o) = o := by
  obtain ⟨rc, ra, rb, unused⟩ := o
  simp only [withoutLiteralFields, rcField, raField, rbField, composeWithoutLiteral, WithoutLiteral.mk.injEq]
  refine ⟨?_, ?_, ?_, ?_⟩ <;> apply BitVec.eq_of_getLsbD_eq <;> intro i hi <;>
    simp only [BitVec.getLsbD_extractLsb', BitVec.getLsbD_append]
  · have : ¬21 + i < 11 ∧ ¬21 + i - 11 < 5 ∧ ¬21 + i - 11 - 5 < 5 ∧ 21 + i - 11 - 5 - 5 = i := by omega
    simp [hi, this]
  · have : ¬16 + i < 11 ∧ ¬16 + i - 11 < 5 ∧ 16 + i - 11 - 5 = i := by omega
    simp [hi, this]
  · have : ¬11 + i < 11 ∧ 11 + i - 11 = i := by omega
    simp [hi]
  · simp [hi]

/-- The fields of a With Literal word are the operands it was composed of. -/
@[simp] theorem withLiteralFields_compose (op : BitVec 6) (o : WithLiteral) :
    withLiteralFields (composeWithLiteral op o) = o := by
  obtain ⟨rc, ra, lit⟩ := o
  simp only [withLiteralFields, rcField, raField, litField, composeWithLiteral, WithLiteral.mk.injEq]
  refine ⟨?_, ?_, ?_⟩ <;> apply BitVec.eq_of_getLsbD_eq <;> intro i hi <;>
    simp only [BitVec.getLsbD_extractLsb', BitVec.getLsbD_append]
  · have : ¬21 + i < 16 ∧ ¬21 + i - 16 < 5 ∧ 21 + i - 16 - 5 = i := by omega
    simp [hi, this]
  · have : ¬16 + i < 16 ∧ 16 + i - 16 = i := by omega
    simp [hi]
  · simp [hi]

/-- A word is composed of its opcode and its Without Literal fields. -/
theorem composeWithoutLiteral_fields (w : Word) :
    composeWithoutLiteral (opcodeField w) (withoutLiteralFields w) = w := by
  apply BitVec.eq_of_getLsbD_eq
  intro i hi
  simp only [composeWithoutLiteral, withoutLiteralFields, opcodeField, rcField, raField, rbField,
    BitVec.getLsbD_extractLsb', BitVec.getLsbD_append]
  rcases (by omega : i < 11 ∨ 11 ≤ i ∧ i < 16 ∨ 16 ≤ i ∧ i < 21 ∨ 21 ≤ i ∧ i < 26 ∨ 26 ≤ i) with
    h | h | h | h | h
  · simp [h]
  · have : ¬i < 11 ∧ i - 11 < 5 ∧ 11 + (i - 11) = i := by omega
    simp [this]
  · have : ¬i < 11 ∧ ¬i - 11 < 5 ∧ i - 11 - 5 < 5 ∧ 16 + (i - 11 - 5) = i := by omega
    simp [this]
  · have : ¬i < 11 ∧ ¬i - 11 < 5 ∧ ¬i - 11 - 5 < 5 ∧ i - 11 - 5 - 5 < 5 ∧ 21 + (i - 11 - 5 - 5) = i := by omega
    simp [this]
  · have : ¬i < 11 ∧ ¬i - 11 < 5 ∧ ¬i - 11 - 5 < 5 ∧ ¬i - 11 - 5 - 5 < 5 ∧ i - 11 - 5 - 5 - 5 < 6 ∧
      26 + (i - 11 - 5 - 5 - 5) = i := by omega
    simp [this]

/-- A word is composed of its opcode and its With Literal fields. -/
theorem composeWithLiteral_fields (w : Word) :
    composeWithLiteral (opcodeField w) (withLiteralFields w) = w := by
  apply BitVec.eq_of_getLsbD_eq
  intro i hi
  simp only [composeWithLiteral, withLiteralFields, opcodeField, rcField, raField, litField,
    BitVec.getLsbD_extractLsb', BitVec.getLsbD_append]
  rcases (by omega : i < 16 ∨ 16 ≤ i ∧ i < 21 ∨ 21 ≤ i ∧ i < 26 ∨ 26 ≤ i) with h | h | h | h
  · simp [h]
  · have : ¬i < 16 ∧ i - 16 < 5 ∧ 16 + (i - 16) = i := by omega
    simp [this]
  · have : ¬i < 16 ∧ ¬i - 16 < 5 ∧ i - 16 - 5 < 5 ∧ 21 + (i - 16 - 5) = i := by omega
    simp [this]
  · have : ¬i < 16 ∧ ¬i - 16 < 5 ∧ ¬i - 16 - 5 < 5 ∧ i - 16 - 5 - 5 < 6 ∧ 26 + (i - 16 - 5 - 5) = i := by omega
    simp [this]

/-- The opcode of a privileged word is 0x00 (rule R88). -/
@[simp] theorem opcodeField_priv (op : BitVec 6) (b : BitVec 26) :
    opcodeField (op ++ b : BitVec (6 + 26)) = op := by
  apply BitVec.eq_of_getLsbD_eq
  intro i hi
  simp only [opcodeField, BitVec.getLsbD_extractLsb', BitVec.getLsbD_append]
  have : ¬26 + i < 26 ∧ 26 + i - 26 = i := by omega
  simp [hi]

end Sys2Proof
end

