-- ==== Sys2Proof/Laws/State.lean ====
section
/-! SUPPORT. One lemma per field per state update, and the read-after-write law of the registers. -/

namespace Sys2Proof.Machine

@[simp] theorem State.setPc_regs (s : State) (t : Word) : (s.setPc t).regs = s.regs := rfl
@[simp] theorem State.setPc_pc (s : State) (t : Word) : (s.setPc t).pc = t := rfl
@[simp] theorem State.setPc_mem (s : State) (t : Word) : (s.setPc t).mem = s.mem := rfl
@[simp] theorem State.setPc_interrupts (s : State) (t : Word) : (s.setPc t).interrupts = s.interrupts := rfl

@[simp] theorem State.setMem_regs (s : State) (m : Memory) : (s.setMem m).regs = s.regs := rfl
@[simp] theorem State.setMem_pc (s : State) (m : Memory) : (s.setMem m).pc = s.pc := rfl
@[simp] theorem State.setMem_mem (s : State) (m : Memory) : (s.setMem m).mem = m := rfl
@[simp] theorem State.setMem_interrupts (s : State) (m : Memory) : (s.setMem m).interrupts = s.interrupts := rfl

@[simp] theorem State.setInterrupts_regs (s : State) (l : List (Option Nat)) : (s.setInterrupts l).regs = s.regs := rfl
@[simp] theorem State.setInterrupts_pc (s : State) (l : List (Option Nat)) : (s.setInterrupts l).pc = s.pc := rfl
@[simp] theorem State.setInterrupts_mem (s : State) (l : List (Option Nat)) : (s.setInterrupts l).mem = s.mem := rfl
@[simp] theorem State.setInterrupts_interrupts (s : State) (l : List (Option Nat)) :
    (s.setInterrupts l).interrupts = l := rfl

@[simp] theorem State.writeReg_pc (s : State) (r : RegNum) (v : Word) : (s.writeReg r v).pc = s.pc := by
  unfold State.writeReg; split <;> rfl
@[simp] theorem State.writeReg_mem (s : State) (r : RegNum) (v : Word) : (s.writeReg r v).mem = s.mem := by
  unfold State.writeReg; split <;> rfl
@[simp] theorem State.writeReg_interrupts (s : State) (r : RegNum) (v : Word) :
    (s.writeReg r v).interrupts = s.interrupts := by
  unfold State.writeReg; split <;> rfl

/-- A register number is 31 or names a register that is stored. -/
theorem regNum_lt_or_eq (r : RegNum) : r.toNat < 31 ∨ r = 31#5 := by
  by_cases h : r.toNat < 31
  · exact .inl h
  · exact .inr (BitVec.eq_of_toNat_eq (by have := r.isLt; simp; omega))

@[simp] theorem State.readReg_31 (s : State) : s.readReg 31#5 = 0#32 := rfl

theorem State.readReg_eq_zero (s : State) {r : RegNum} (h : r = 31#5) : s.readReg r = 0#32 := by
  subst h; rfl

/-- A write to register 31 changes nothing (rule R21). -/
@[simp] theorem State.writeReg_31 (s : State) (v : Word) : s.writeReg 31#5 v = s := rfl

/-- Reading after writing (rules R8, R21). -/
theorem State.readReg_writeReg (s : State) (r r' : RegNum) (v : Word) :
    (s.writeReg r v).readReg r' = if r' = 31#5 then 0#32 else if r' = r then v else s.readReg r' := by
  rcases regNum_lt_or_eq r' with h' | rfl
  · have hne : r' ≠ 31#5 := by rintro rfl; simp at h'
    rcases regNum_lt_or_eq r with h | rfl
    · by_cases e : r' = r
      · subst e; simp [State.readReg, State.writeReg, h, hne]
      · have : r.toNat ≠ r'.toNat := fun q => e (BitVec.eq_of_toNat_eq q.symm)
        simp [State.readReg, State.writeReg, h, h', hne, e, this]
    · simp [hne]
  · simp

/-- The registers do not depend on the other fields. -/
theorem State.readReg_congr {s t : State} (h : s.regs = t.regs) (r : RegNum) : s.readReg r = t.readReg r := by
  simp [State.readReg, h]

@[simp] theorem State.readReg_setPc (s : State) (t : Word) (r : RegNum) : (s.setPc t).readReg r = s.readReg r := rfl
@[simp] theorem State.readReg_setMem (s : State) (m : Memory) (r : RegNum) : (s.setMem m).readReg r = s.readReg r := rfl
@[simp] theorem State.readReg_setInterrupts (s : State) (l : List (Option Nat)) (r : RegNum) :
    (s.setInterrupts l).readReg r = s.readReg r := rfl

@[simp] theorem State.advance_regs (s : State) : s.advance.regs = s.regs := rfl
@[simp] theorem State.advance_pc (s : State) : s.advance.pc = pcInc s.pc := rfl
@[simp] theorem State.advance_mem (s : State) : s.advance.mem = s.mem := rfl
@[simp] theorem State.advance_interrupts (s : State) : s.advance.interrupts = s.interrupts := rfl
@[simp] theorem State.readReg_advance (s : State) (r : RegNum) : s.advance.readReg r = s.readReg r := rfl

@[simp] theorem State.supervisor_writeReg (s : State) (r : RegNum) (v : Word) :
    (s.writeReg r v).supervisor = s.supervisor := by
  simp [State.supervisor]
@[simp] theorem State.supervisor_setMem (s : State) (m : Memory) : (s.setMem m).supervisor = s.supervisor := rfl
@[simp] theorem State.supervisor_setInterrupts (s : State) (l : List (Option Nat)) :
    (s.setInterrupts l).supervisor = s.supervisor := rfl

end Sys2Proof.Machine
end

