-- ==== Sys2Proof/Laws/Memory.lean ====
section
/-! SUPPORT. The laws of memory: a read after a write, and every memory operation keeps the canonical form. -/

namespace Sys2Proof.Machine

/-- A byte reads as written, and every other byte as before (rule R60 (a), (c)). -/
theorem Memory.readByte_writeByte (m : Memory) (a : Nat) (v : Byte) (b : Nat) :
    Memory.readByte (Memory.writeByte m a v) b = if b = a then some v else Memory.readByte m b := by
  induction m with
  | nil => simp [Memory.writeByte, Memory.readByte]
  | cons c m ih =>
    obtain ⟨d, w⟩ := c
    simp only [Memory.writeByte]
    split
    · simp [Memory.readByte]
    · split
      · subst_vars; simp only [Memory.readByte]; split <;> simp_all
      · simp only [Memory.readByte, ih]
        by_cases h : b = d
        · subst h; simp; intro e; omega
        · simp [h]

/-- Writing at or above the lower bound keeps the addresses rising. -/
theorem Memory.risingFrom_writeByte {m : Memory} {lo a : Nat} (v : Byte) (h : Memory.risingFrom lo m = true)
    (ha : lo ≤ a) : Memory.risingFrom lo (Memory.writeByte m a v) = true := by
  induction m generalizing lo with
  | nil => simpa [Memory.writeByte, Memory.risingFrom] using ha
  | cons c m ih =>
    obtain ⟨d, w⟩ := c
    simp only [Memory.risingFrom, Bool.and_eq_true, decide_eq_true_eq] at h
    simp only [Memory.writeByte]
    split
    · simp [Memory.risingFrom, ha, h.2]; omega
    · split
      · subst_vars; simp [Memory.risingFrom, ha, h.2]
      · simp only [Memory.risingFrom, Bool.and_eq_true, decide_eq_true_eq]
        exact ⟨h.1, ih h.2 (by omega)⟩

/-- Every cell of the memory after a write is the written one or was there before. -/
theorem Memory.mem_writeByte {m : Memory} {a : Nat} {v : Byte} {c : Host.Cell}
    (h : c ∈ Memory.writeByte m a v) : c = (a, v) ∨ c ∈ m := by
  induction m with
  | nil => simpa [Memory.writeByte] using h
  | cons d m ih =>
    obtain ⟨b, w⟩ := d
    simp only [Memory.writeByte] at h
    split at h
    · simpa using h
    · split at h
      · rcases List.mem_cons.1 h with rfl | h
        · exact .inl rfl
        · exact .inr (List.mem_cons_of_mem _ h)
      · rcases List.mem_cons.1 h with rfl | h
        · exact .inr (List.mem_cons_self ..)
        · rcases ih h with h | h
          · exact .inl h
          · exact .inr (List.mem_cons_of_mem _ h)

/-- A byte written inside the address space keeps the canonical form (rule R31). -/
theorem Memory.wf_writeByte {m : Memory} {a : Nat} (v : Byte) (h : Memory.wf m = true) (ha : a < 2 ^ 32) :
    Memory.wf (Memory.writeByte m a v) = true := by
  simp only [Memory.wf, Bool.and_eq_true, List.all_eq_true, decide_eq_true_eq] at h ⊢
  refine ⟨Memory.risingFrom_writeByte v h.1 (Nat.zero_le a), fun c hc => ?_⟩
  rcases Memory.mem_writeByte hc with rfl | hc
  · exact ha
  · exact h.2 c hc

/-- A word written inside the address space keeps the canonical form (rule R31). -/
theorem Memory.wf_writeWord {m : Memory} {a : Nat} (v : Word) (h : Memory.wf m = true) (ha : a + 4 ≤ 2 ^ 32) :
    Memory.wf (Memory.writeWord m a v) = true := by
  simp only [Memory.writeWord]
  exact Memory.wf_writeByte _ (Memory.wf_writeByte _ (Memory.wf_writeByte _ (Memory.wf_writeByte _ h
    (by omega)) (by omega)) (by omega)) (by omega)

/-- The bytes of memory after a word is written (rules R51, R60). -/
theorem Memory.readByte_writeWord (m : Memory) (a : Nat) (v : Word) (b : Nat) :
    Memory.readByte (Memory.writeWord m a v) b =
      if a ≤ b ∧ b < a + 4 then some (leByte v (b - a)) else Memory.readByte m b := by
  simp only [Memory.writeWord, Memory.readByte_writeByte]
  by_cases h3 : b = a + 3
  · subst h3; simp
  by_cases h2 : b = a + 2
  · subst h2; simp
  by_cases h1 : b = a + 1
  · subst h1; simp
  by_cases h0 : b = a
  · subst h0; simp
  · have : ¬(a ≤ b ∧ b < a + 4) := by omega
    simp [h0, h1, h2, h3, this]

/-- A word is put together from its own bytes (rule R51). -/
theorem leWord_leByte (w : Word) : leWord (leByte w 0) (leByte w 1) (leByte w 2) (leByte w 3) = w := by
  apply BitVec.eq_of_getLsbD_eq
  intro i hi
  simp only [leWord, leByte, BitVec.getLsbD_append, BitVec.getLsbD_extractLsb']
  rcases (by omega : i < 8 ∨ 8 ≤ i ∧ i < 16 ∨ 16 ≤ i ∧ i < 24 ∨ 24 ≤ i) with h | h | h | h
  · simp [h]
  · simp [show ¬i < 8 by omega, show i - 8 < 8 by omega, show 8 + (i - 8) = i by omega]
  · simp [show ¬i < 8 by omega, show ¬i - 8 < 8 by omega, show i - 8 - 8 < 8 by omega,
      show 16 + (i - 8 - 8) = i by omega]
  · simp [show ¬i < 8 by omega, show ¬i - 8 < 8 by omega, show ¬i - 8 - 8 < 8 by omega,
      show i - 8 - 8 - 8 < 8 by omega, show 24 + (i - 8 - 8 - 8) = i by omega]

/-- A word reads back as it was written (rule R60 (a)). -/
theorem Memory.readWord_writeWord (m : Memory) (a : Nat) (v : Word) :
    Memory.readWord (Memory.writeWord m a v) a = some v := by
  have e : ∀ i, a + i - a = i := fun i => by omega
  simp [Memory.readWord, Memory.readByte_writeWord, e, leWord_leByte]

/-- Words are read from bytes alone: the same bytes give the same word. -/
theorem Memory.readWord_congr {m m' : Memory} {a : Nat}
    (h : ∀ i < 4, Memory.readByte m' (a + i) = Memory.readByte m (a + i)) :
    Memory.readWord m' a = Memory.readWord m a := by
  have h0 := h 0 (by omega)
  have h1 := h 1 (by omega)
  have h2 := h 2 (by omega)
  have h3 := h 3 (by omega)
  simp only [Nat.add_zero] at h0
  simp [Memory.readWord, h0, h1, h2, h3]

/-- Writing one word leaves a word that shares no byte with it (rule R60 (c)). -/
theorem Memory.readWord_writeWord_of_apart (m : Memory) {a b : Nat} (v : Word) (h : b + 4 ≤ a ∨ a + 4 ≤ b) :
    Memory.readWord (Memory.writeWord m a v) b = Memory.readWord m b :=
  Memory.readWord_congr fun i hi => by
    rw [Memory.readByte_writeWord, if_neg (by omega)]

end Sys2Proof.Machine
end

