-- ==== Sys2Proof/Laws/Ops.lean ====
section
/-! SUPPORT. For each shared operation, what it can do, said once. -/

namespace Sys2Proof.Machine

/-! ### Sequencing -/

@[simp] theorem andThen_next {α β : Type} (a : α) (f : α → Answer β) : andThen (.next a) f = f a := rfl
@[simp] theorem andThen_fault {α β : Type} (r : Fault) (f : α → Answer β) : andThen (.fault r) f = .fault r := rfl
@[simp] theorem andThen_refused {α β : Type} (r : Refusal) (f : α → Answer β) :
    andThen (.refused r) f = .refused r := rfl

/-- A sequence answers exactly where both of its parts do. -/
theorem andThen_eq_next {α β : Type} {x : Answer α} {f : α → Answer β} {b : β} :
    andThen x f = .next b ↔ ∃ a, x = .next a ∧ f a = .next b := by
  cases x <;> simp

/-! ### Program counter -/

@[simp] theorem supBit_append (b : BitVec 1) (a : BitVec 31) : supBit (b ++ a : BitVec (1 + 31)) = b := by
  apply BitVec.eq_of_getLsbD_eq
  intro i hi
  obtain rfl : i = 0 := by omega
  simp only [supBit, BitVec.getLsbD_extractLsb', BitVec.getLsbD_append]
  simp

@[simp] theorem addrPart_append (b : BitVec 1) (a : BitVec 31) : addrPart (b ++ a : BitVec (1 + 31)) = a := by
  apply BitVec.eq_of_getLsbD_eq
  intro i hi
  simp only [addrPart, BitVec.getLsbD_extractLsb', BitVec.getLsbD_append]
  simp [hi]

/-- A program counter is its Supervisor bit and its address part (rule R24). -/
theorem supBit_append_addrPart (p : Word) : (supBit p ++ addrPart p : BitVec (1 + 31)) = p := by
  apply BitVec.eq_of_getLsbD_eq
  intro i hi
  by_cases h : i < 31
  · simp only [addrPart, BitVec.getLsbD_extractLsb', BitVec.getLsbD_append]
    simp [h]
  · obtain rfl : i = 31 := by omega
    simp only [supBit, BitVec.getLsbD_extractLsb', BitVec.getLsbD_append]
    simp

/-- The updated PC is in the same mode (rule R26). -/
@[simp] theorem supBit_pcInc (p : Word) : supBit (pcInc p) = supBit p := supBit_append _ _
@[simp] theorem addrPart_pcInc (p : Word) : addrPart (pcInc p) = addrPart p + 4#31 := addrPart_append _ _

/-- A branch target is in the same mode (rule R26). -/
@[simp] theorem supBit_pcTarget (p off : Word) : supBit (pcTarget p off) = supBit p := supBit_append _ _
@[simp] theorem addrPart_pcTarget (p off : Word) : addrPart (pcTarget p off) = addrPart p + addrPart off :=
  addrPart_append _ _

@[simp] theorem supBit_jumpPc (p t : Word) : supBit (jumpPc p t) = supBit p &&& supBit (t &&& 0xFFFFFFFC#32) :=
  supBit_append _ _
@[simp] theorem addrPart_jumpPc (p t : Word) : addrPart (jumpPc p t) = addrPart (t &&& 0xFFFFFFFC#32) :=
  addrPart_append _ _

/-- The mask of JMP leaves bit 31 alone. -/
@[simp] theorem supBit_and_mask (t : Word) : supBit (t &&& 0xFFFFFFFC#32) = supBit t := by
  apply BitVec.eq_of_getLsbD_eq
  intro i hi
  obtain rfl : i = 0 := by omega
  simp [supBit]

/-- Bits 1:0 of a word, as arithmetic on its address part. -/
theorem lowBits_eq_zero_iff (p : Word) : p.extractLsb' 0 2 = 0#2 ↔ (addrPart p).toNat % 4 = 0 := by
  have h : (addrPart p).toNat % 4 = p.toNat % 4 := by
    simp [addrPart]
  rw [h, ← BitVec.toNat_inj]
  simp

theorem pcAligned_pcInc {p : Word} (h : p.extractLsb' 0 2 = 0#2) : (pcInc p).extractLsb' 0 2 = 0#2 := by
  rw [lowBits_eq_zero_iff] at h ⊢
  simp only [addrPart_pcInc, BitVec.toNat_add]
  have : (4#31).toNat = 4 := rfl
  omega

theorem pcAligned_pcTarget {p off : Word} (h : p.extractLsb' 0 2 = 0#2) (ho : off.extractLsb' 0 2 = 0#2) :
    (pcTarget p off).extractLsb' 0 2 = 0#2 := by
  rw [lowBits_eq_zero_iff] at h ho ⊢
  simp only [addrPart_pcTarget, BitVec.toNat_add]
  omega

/-- A masked word is a multiple of 4. -/
@[simp] theorem lowBits_and_mask (t : Word) : (t &&& 0xFFFFFFFC#32).extractLsb' 0 2 = 0#2 := by
  apply BitVec.eq_of_getLsbD_eq
  intro i hi
  rcases (by omega : i = 0 ∨ i = 1) with rfl | rfl <;> simp

theorem pcAligned_jumpPc (p t : Word) : (jumpPc p t).extractLsb' 0 2 = 0#2 := by
  rw [lowBits_eq_zero_iff, addrPart_jumpPc, ← lowBits_eq_zero_iff]
  exact lowBits_and_mask t

/-- Exception entry is to supervisor mode (rule R206). -/
@[simp] theorem supBit_vectorPc (k : ExcKind) : supBit (vectorPc k) = 1#1 := by
  apply BitVec.eq_of_getLsbD_eq
  intro i hi
  obtain rfl : i = 0 := by omega
  simp only [supBit, vectorPc, BitVec.getLsbD_extractLsb', BitVec.getLsbD_append]
  simp

theorem pcAligned_vectorPc (k : ExcKind) : (vectorPc k).extractLsb' 0 2 = 0#2 := by
  apply BitVec.eq_of_getLsbD_eq
  intro i hi
  simp only [vectorPc, BitVec.getLsbD_extractLsb', BitVec.getLsbD_append]
  rcases (by omega : i = 0 ∨ i = 1) with rfl | rfl <;> simp

@[simp] theorem State.supervisor_setPc (s : State) (t : Word) : (s.setPc t).supervisor = (supBit t == 1#1) := rfl
@[simp] theorem State.supervisor_advance (s : State) : s.advance.supervisor = s.supervisor := by
  simp [State.advance, State.supervisor]

/-! ### Ends of instructions -/

/-- An instruction that ends with a result has exactly that effect (rule R28). -/
theorem writeResult_onlyResult (rc : RegNum) (v : Word) (s : State) :
    ∃ t, writeResult rc v s = .next t ∧ OnlyResult s t rc v :=
  ⟨_, rfl, fun r => by simp [State.readReg_writeReg], by simp, fun a => by simp, by simp⟩

/-- What a result answers is the state with the register written and the pc advanced. -/
theorem writeResult_eq_next {rc : RegNum} {v : Word} {s t : State} :
    writeResult rc v s = .next t ↔ t = (s.writeReg rc v).advance := by
  simp only [writeResult, Host.Outcome.next.injEq]
  exact eq_comm

/-! ### Memory -/

/-- A multiple of 4 leaves room for a longword in the address space. -/
theorem plainMemory_of_aligned {a : Word} (h : a.extractLsb' 0 2 = 0#2) : plainMemory a = true := by
  have h4 : a.toNat % 4 = 0 := by
    have := congrArg BitVec.toNat h
    simpa using this
  have := a.isLt
  simp [plainMemory, memMap]
  omega

/-- The address of a fetch lies in plain memory. -/
theorem plainMemory_fetchAddress (p : Word) : plainMemory (fetchAddress p) = true := by
  have h : (fetchAddress p).toNat < 2 ^ 31 := by
    simp [fetchAddress]
    exact Nat.lt_of_le_of_lt (Nat.mod_le _ _) (addrPart p).isLt
  simp [plainMemory, memMap]
  omega

/-- A longword in plain memory ends inside the address space. -/
theorem plainMemory_lt {a : Word} (h : plainMemory a = true) : a.toNat + 4 ≤ 2 ^ 32 := by
  simp [plainMemory, memMap] at h
  omega

/-- A read answers exactly where the address lies in plain memory and its bytes hold values. -/
theorem memRead_eq_next {m : Memory} {a w : Word} :
    memRead m a = .next w ↔ plainMemory a = true ∧ Memory.readWord m a.toNat = some w := by
  unfold memRead
  split
  · split <;> simp_all
  · simp_all

/-- A write answers exactly where the address lies in plain memory. -/
theorem memWrite_eq_next {s t : State} {a v : Word} :
    memWrite s a v = .next t ↔ plainMemory a = true ∧ t = s.setMem (Memory.writeWord s.mem a.toNat v) := by
  unfold memWrite
  split <;> rename_i h
  · simp only [h, true_and, Host.Outcome.next.injEq]
    exact eq_comm
  · simp [h]

/-- A word written is stored, and nothing else in memory changes. -/
theorem storesWord_setMem (s : State) (a v : Word) :
    StoresWord s (s.setMem (Memory.writeWord s.mem a.toNat v)) a v := by
  refine ⟨fun i hi => ?_, fun b hb => ?_⟩
  · simp [Memory.readByte_writeWord, hi]
  · rw [State.setMem_mem, Memory.readByte_writeWord, if_neg (by omega)]

@[simp] theorem dataAddress_of_aligned {ea : Word} (h : ea.extractLsb' 0 2 = 0#2) : dataAddress ea = .next ea := by
  simp [dataAddress, h]

/-- LD and ST access the effective address, or, where it is no multiple of 4, that address masked (rule R54). -/
theorem dataAddress_eq_next {ea a : Word} (h : dataAddress ea = .next a) :
    a.extractLsb' 0 2 = 0#2 ∧ (a = ea ∨ ea.extractLsb' 0 2 ≠ 0#2 ∧ a = ea &&& 0xFFFFFFFC#32) := by
  unfold dataAddress at h
  split at h
  · rename_i h0
    cases h
    exact ⟨h0, .inl rfl⟩
  · rename_i h0
    split at h
    · cases h
      exact ⟨lowBits_and_mask ea, .inr ⟨h0, rfl⟩⟩
    · cases h

/-- The address of a fetch ignores the Supervisor bit (rule R33). -/
theorem fetchAddress_toNat (p : Word) : (fetchAddress p).toNat = (addrPart p).toNat := by
  have := (addrPart p).isLt
  simp only [fetchAddress, BitVec.toNat_setWidth]
  omega

/-- The fetch answers exactly the word the memory holds there. -/
theorem fetch_eq_next {s : State} {w : Word} : fetch s = .next w ↔ FetchesWord s w := by
  simp [fetch, memRead_eq_next, plainMemory_fetchAddress, FetchesWord]

/-! ### Exceptions and interrupts -/

/-- In user mode an exception enters its handler (rule R206). -/
theorem raise_user {k : ExcKind} {s : State} (h : s.supervisor = false) :
    raise k s = .next (takeException k s) := by
  simp [raise, h]

/-- In supervisor mode an exception stops the machine (rule R212). -/
theorem raise_supervisor {k : ExcKind} {s : State} (h : s.supervisor = true) :
    raise k s = .fault (.supervisorException k) := by
  simp [raise, h]

/-- An exception that is taken was raised in user mode and enters its handler. -/
theorem raise_eq_next {k : ExcKind} {s t : State} :
    raise k s = .next t ↔ s.supervisor = false ∧ t = takeException k s := by
  cases h : s.supervisor <;> simp [raise, h, eq_comm]

/-- Exception entry changes XP and the pc and nothing else (rules R203, R206). -/
theorem takeException_entersHandler (k : ExcKind) (s : State) : EntersHandler s (takeException k s) k :=
  ⟨fun r => by simp [takeException, State.readReg_writeReg, xpNum], rfl,
    fun a => by simp [takeException], by simp [takeException]⟩

@[simp] theorem takeException_pc (k : ExcKind) (s : State) : (takeException k s).pc = vectorPc k := rfl
@[simp] theorem takeException_mem (k : ExcKind) (s : State) : (takeException k s).mem = s.mem := by
  simp [takeException]
@[simp] theorem takeException_interrupts (k : ExcKind) (s : State) :
    (takeException k s).interrupts = s.interrupts := by
  simp [takeException]
@[simp] theorem takeException_supervisor (k : ExcKind) (s : State) : (takeException k s).supervisor = true := by
  simp [takeException]

/-- No interrupt is taken in supervisor mode (rule R212). -/
theorem interruptTaken_supervisor {s : State} (h : s.supervisor = true) : interruptTaken s = none := by
  simp [interruptTaken, h]

/-- An interrupt that is taken is taken in user mode, and is the environment's choice at this boundary (rule R208). -/
theorem interruptTaken_eq_some {s : State} {source : Nat} :
    interruptTaken s = some source ↔ s.supervisor = false ∧ ∃ rest, s.interrupts = some source :: rest := by
  cases h : s.supervisor
  · cases hi : s.interrupts with
    | nil => simp [interruptTaken, h, hi]
    | cons x rest => cases x <;> simp [interruptTaken, h, hi]
  · simp [interruptTaken, h]

@[simp] theorem passBoundary_pc (s : State) : (passBoundary s).pc = s.pc := by
  unfold passBoundary; split <;> rfl
@[simp] theorem passBoundary_mem (s : State) : (passBoundary s).mem = s.mem := by
  unfold passBoundary; split <;> rfl
@[simp] theorem passBoundary_regs (s : State) : (passBoundary s).regs = s.regs := by
  unfold passBoundary; split <;> rfl
@[simp] theorem readReg_passBoundary (s : State) (r : RegNum) : (passBoundary s).readReg r = s.readReg r :=
  State.readReg_congr (by simp) r
@[simp] theorem passBoundary_supervisor (s : State) : (passBoundary s).supervisor = s.supervisor := by
  simp [State.supervisor]

end Sys2Proof.Machine
end

