-- ==== Sys2Proof/Laws/Exec.lean ====
section
/-! SUPPORT. What one instruction and one step of the machine can do, said once. -/

namespace Sys2Proof.Machine

/-- Every next state an instruction gives is one of these: a result in `x[rc]`; a branch; a jump; a word stored; or the
illegal-instruction exception of opcode 0x00 (rules R28, R36). -/
theorem exec_eq_next {i : Instr} {s t : State} (h : exec i s = .next t) :
    (∃ rc v, t = (s.writeReg rc v).advance) ∨
    (∃ o b, (i = .beq o ∨ i = .bne o) ∧
      t = (s.writeReg o.rc (pcInc s.pc)).setPc
        (if b = true then pcTarget (pcInc s.pc) (longwordOffset o.lit) else pcInc s.pc)) ∨
    (∃ o, i = .jmp o ∧ t = (s.writeReg o.rc (pcInc s.pc)).setPc (jumpPc s.pc (s.readReg o.ra))) ∨
    (∃ o a, i = .st o ∧ dataAddress (baseDisplacement s o) = .next a ∧ plainMemory a = true ∧
      t = (s.setMem (Memory.writeWord s.mem a.toNat (s.readReg o.rc))).advance) ∨
    (∃ b, i = .priv b ∧ s.supervisor = false ∧ t = takeException .illegalInstruction s) := by
  cases i with
  | add o => exact .inl ⟨_, _, writeResult_eq_next.1 h⟩
  | addc o => exact .inl ⟨_, _, writeResult_eq_next.1 h⟩
  | and o => exact .inl ⟨_, _, writeResult_eq_next.1 h⟩
  | andc o => exact .inl ⟨_, _, writeResult_eq_next.1 h⟩
  | beq o => cases h; exact .inr (.inl ⟨o, _, .inl rfl, rfl⟩)
  | bne o => cases h; exact .inr (.inl ⟨o, _, .inr rfl, rfl⟩)
  | cmpeq o => exact .inl ⟨_, _, writeResult_eq_next.1 h⟩
  | cmpeqc o => exact .inl ⟨_, _, writeResult_eq_next.1 h⟩
  | cmple o => exact .inl ⟨_, _, writeResult_eq_next.1 h⟩
  | cmplec o => exact .inl ⟨_, _, writeResult_eq_next.1 h⟩
  | cmplt o => exact .inl ⟨_, _, writeResult_eq_next.1 h⟩
  | cmpltc o => exact .inl ⟨_, _, writeResult_eq_next.1 h⟩
  | div o => exact .inl ⟨_, _, writeResult_eq_next.1 h⟩
  | divc o => exact .inl ⟨_, _, writeResult_eq_next.1 h⟩
  | jmp o => cases h; exact .inr (.inr (.inl ⟨o, rfl, rfl⟩))
  | ld o =>
    obtain ⟨a, -, h⟩ := andThen_eq_next.1 h
    obtain ⟨v, -, h⟩ := andThen_eq_next.1 h
    exact .inl ⟨_, _, writeResult_eq_next.1 h⟩
  | ldr o =>
    obtain ⟨v, -, h⟩ := andThen_eq_next.1 h
    exact .inl ⟨_, _, writeResult_eq_next.1 h⟩
  | mul o => exact .inl ⟨_, _, writeResult_eq_next.1 h⟩
  | mulc o => exact .inl ⟨_, _, writeResult_eq_next.1 h⟩
  | or o => exact .inl ⟨_, _, writeResult_eq_next.1 h⟩
  | orc o => exact .inl ⟨_, _, writeResult_eq_next.1 h⟩
  | shl o => exact .inl ⟨_, _, writeResult_eq_next.1 h⟩
  | shlc o => exact .inl ⟨_, _, writeResult_eq_next.1 h⟩
  | shr o => exact .inl ⟨_, _, writeResult_eq_next.1 h⟩
  | shrc o => exact .inl ⟨_, _, writeResult_eq_next.1 h⟩
  | sra o => exact .inl ⟨_, _, writeResult_eq_next.1 h⟩
  | srac o => exact .inl ⟨_, _, writeResult_eq_next.1 h⟩
  | sub o => exact .inl ⟨_, _, writeResult_eq_next.1 h⟩
  | subc o => exact .inl ⟨_, _, writeResult_eq_next.1 h⟩
  | st o =>
    obtain ⟨a, ha, h⟩ := andThen_eq_next.1 h
    obtain ⟨u, hu, h⟩ := andThen_eq_next.1 h
    obtain ⟨hp, rfl⟩ := memWrite_eq_next.1 hu
    cases h
    exact .inr (.inr (.inr (.inl ⟨o, a, rfl, ha, hp, rfl⟩)))
  | xor o => exact .inl ⟨_, _, writeResult_eq_next.1 h⟩
  | xorc o => exact .inl ⟨_, _, writeResult_eq_next.1 h⟩
  | priv b =>
    cases hs : s.supervisor with
    | true => simp [exec, execPriv, hs] at h
    | false =>
      simp only [exec, execPriv, hs, Bool.false_eq_true, if_false] at h
      exact .inr (.inr (.inr (.inr ⟨b, rfl, rfl, (raise_eq_next.1 h).2⟩)))

/-- A step that gives a next state took an interrupt, or executed the instruction it fetched, or raised
IllegalInstruction for the word it fetched (rule R13). -/
theorem step_eq_next {s t : State} (h : step s = .next t) :
    (∃ source, interruptTaken s = some source ∧ s.supervisor = false ∧
      t = takeException (.interrupt source) (passBoundary s)) ∨
    (interruptTaken s = none ∧ ∃ w, FetchesWord s w ∧
      ((∃ i, decode w = .ok i ∧ exec i (passBoundary s) = .next t) ∨
       (∃ e, decode w = .error e ∧ s.supervisor = false ∧
        t = takeException .illegalInstruction (passBoundary s)))) := by
  simp only [step, stepWith] at h
  split at h
  · rename_i source hsrc
    obtain ⟨hu, rfl⟩ := raise_eq_next.1 h
    exact .inl ⟨source, hsrc, by simpa using hu, rfl⟩
  · rename_i hnone
    obtain ⟨w, hw, h⟩ := andThen_eq_next.1 h
    refine .inr ⟨hnone, w, fetch_eq_next.1 hw, ?_⟩
    simp only [dispatchWord] at h
    split at h
    · exact .inl ⟨_, by assumption, h⟩
    · obtain ⟨hu, rfl⟩ := raise_eq_next.1 h
      exact .inr ⟨_, by assumption, by simpa using hu, rfl⟩

end Sys2Proof.Machine
end

