-- ==== Sys2Proof/Laws/PerInstr.lean ====
section
/-! SUPPORT. Statements about every instruction, one lemma per constructor. -/

namespace Sys2Proof.Laws

/-- The word of an instruction carries its opcode in bits 31:26 (rules R82, R83). -/
def OpcodeField.Statement (i : Instr) : Prop := opcodeField (encode i) = i.opcode

theorem OpcodeField.add (o : WithoutLiteral) : OpcodeField.Statement (.add o) :=
  opcodeField_composeWithoutLiteral _ o
theorem OpcodeField.addc (o : WithLiteral) : OpcodeField.Statement (.addc o) :=
  opcodeField_composeWithLiteral _ o
theorem OpcodeField.and (o : WithoutLiteral) : OpcodeField.Statement (.and o) :=
  opcodeField_composeWithoutLiteral _ o
theorem OpcodeField.andc (o : WithLiteral) : OpcodeField.Statement (.andc o) :=
  opcodeField_composeWithLiteral _ o
theorem OpcodeField.beq (o : WithLiteral) : OpcodeField.Statement (.beq o) :=
  opcodeField_composeWithLiteral _ o
theorem OpcodeField.bne (o : WithLiteral) : OpcodeField.Statement (.bne o) :=
  opcodeField_composeWithLiteral _ o
theorem OpcodeField.cmpeq (o : WithoutLiteral) : OpcodeField.Statement (.cmpeq o) :=
  opcodeField_composeWithoutLiteral _ o
theorem OpcodeField.cmpeqc (o : WithLiteral) : OpcodeField.Statement (.cmpeqc o) :=
  opcodeField_composeWithLiteral _ o
theorem OpcodeField.cmple (o : WithoutLiteral) : OpcodeField.Statement (.cmple o) :=
  opcodeField_composeWithoutLiteral _ o
theorem OpcodeField.cmplec (o : WithLiteral) : OpcodeField.Statement (.cmplec o) :=
  opcodeField_composeWithLiteral _ o
theorem OpcodeField.cmplt (o : WithoutLiteral) : OpcodeField.Statement (.cmplt o) :=
  opcodeField_composeWithoutLiteral _ o
theorem OpcodeField.cmpltc (o : WithLiteral) : OpcodeField.Statement (.cmpltc o) :=
  opcodeField_composeWithLiteral _ o
theorem OpcodeField.div (o : WithoutLiteral) : OpcodeField.Statement (.div o) :=
  opcodeField_composeWithoutLiteral _ o
theorem OpcodeField.divc (o : WithLiteral) : OpcodeField.Statement (.divc o) :=
  opcodeField_composeWithLiteral _ o
theorem OpcodeField.jmp (o : WithLiteral) : OpcodeField.Statement (.jmp o) :=
  opcodeField_composeWithLiteral _ o
theorem OpcodeField.ld (o : WithLiteral) : OpcodeField.Statement (.ld o) :=
  opcodeField_composeWithLiteral _ o
theorem OpcodeField.ldr (o : WithLiteral) : OpcodeField.Statement (.ldr o) :=
  opcodeField_composeWithLiteral _ o
theorem OpcodeField.mul (o : WithoutLiteral) : OpcodeField.Statement (.mul o) :=
  opcodeField_composeWithoutLiteral _ o
theorem OpcodeField.mulc (o : WithLiteral) : OpcodeField.Statement (.mulc o) :=
  opcodeField_composeWithLiteral _ o
theorem OpcodeField.or (o : WithoutLiteral) : OpcodeField.Statement (.or o) :=
  opcodeField_composeWithoutLiteral _ o
theorem OpcodeField.orc (o : WithLiteral) : OpcodeField.Statement (.orc o) :=
  opcodeField_composeWithLiteral _ o
theorem OpcodeField.shl (o : WithoutLiteral) : OpcodeField.Statement (.shl o) :=
  opcodeField_composeWithoutLiteral _ o
theorem OpcodeField.shlc (o : WithLiteral) : OpcodeField.Statement (.shlc o) :=
  opcodeField_composeWithLiteral _ o
theorem OpcodeField.shr (o : WithoutLiteral) : OpcodeField.Statement (.shr o) :=
  opcodeField_composeWithoutLiteral _ o
theorem OpcodeField.shrc (o : WithLiteral) : OpcodeField.Statement (.shrc o) :=
  opcodeField_composeWithLiteral _ o
theorem OpcodeField.sra (o : WithoutLiteral) : OpcodeField.Statement (.sra o) :=
  opcodeField_composeWithoutLiteral _ o
theorem OpcodeField.srac (o : WithLiteral) : OpcodeField.Statement (.srac o) :=
  opcodeField_composeWithLiteral _ o
theorem OpcodeField.sub (o : WithoutLiteral) : OpcodeField.Statement (.sub o) :=
  opcodeField_composeWithoutLiteral _ o
theorem OpcodeField.subc (o : WithLiteral) : OpcodeField.Statement (.subc o) :=
  opcodeField_composeWithLiteral _ o
theorem OpcodeField.st (o : WithLiteral) : OpcodeField.Statement (.st o) :=
  opcodeField_composeWithLiteral _ o
theorem OpcodeField.xor (o : WithoutLiteral) : OpcodeField.Statement (.xor o) :=
  opcodeField_composeWithoutLiteral _ o
theorem OpcodeField.xorc (o : WithLiteral) : OpcodeField.Statement (.xorc o) :=
  opcodeField_composeWithLiteral _ o
theorem OpcodeField.priv (b : BitVec 26) : OpcodeField.Statement (.priv b) := opcodeField_priv _ b

end Sys2Proof.Laws
end

