-- ==== Sys2Proof/Tests/Slice0.lean ====
section
/-! SUPPORT. The model's own tests. Expected values are those of 95_test_vectors.md (section numbers in the comments) or
computed by hand from the rule named; words are written out field by field, opcode rc ra rb unused or opcode rc ra
literal, from the encoding line of the instruction's rule. -/

namespace Sys2Proof.Tests

open Sys2Proof.Machine

/-! ### Helpers -/

/-- A state at `pc` with some registers and some words of memory set, the rest as after reset. -/
def start (pc : Word) (regs : List (RegNum × Word)) (mem : List (Nat × Word)) : State :=
  let s := regs.foldl (fun s p => s.writeReg p.1 p.2) (State.reset.setPc pc)
  s.setMem (mem.foldl (fun m p => Memory.writeWord m p.1 p.2) [])

/-- One step from such a state with the word `iw` where the step fetches. -/
def run1 (pc iw : Word) (regs : List (RegNum × Word)) (mem : List (Nat × Word)) : Answer State :=
  step (start pc regs (mem ++ [((fetchAddress pc).toNat, iw)]))

def regAfter (r : RegNum) : Answer State → Option Word
  | .next t => some (t.readReg r)
  | _ => none

def pcAfter : Answer State → Option Word
  | .next t => some t.pc
  | _ => none

def memAfter (a : Nat) : Answer State → Option Word
  | .next t => Memory.readWord t.mem a
  | _ => none

def refusalOf : Answer State → Option Refusal
  | .refused r => some r
  | _ => none

def faultOf : Answer State → Option Fault
  | .fault r => some r
  | _ => none

/-! ### Decoding: every constructor's word, written out from the encoding line of its rule -/

theorem test_decode_add :
    decode 0b100000_00011_10001_01001_00000000000#32 = .ok (.add ⟨3#5, 17#5, 9#5, 0#11⟩) := rfl

theorem test_decode_addc :
    decode 0b110000_00011_10001_1000000001001110#32 = .ok (.addc ⟨3#5, 17#5, 0x804E#16⟩) := rfl

theorem test_decode_and :
    decode 0b101000_00101_01111_01011_00000000000#32 = .ok (.and ⟨5#5, 15#5, 11#5, 0#11⟩) := rfl

theorem test_decode_andc :
    decode 0b111000_00101_01111_1000000011101000#32 = .ok (.andc ⟨5#5, 15#5, 0x80E8#16⟩) := rfl

theorem test_decode_beq :
    decode 0b011101_00110_01110_1000000100110101#32 = .ok (.beq ⟨6#5, 14#5, 0x8135#16⟩) := rfl

theorem test_decode_bne :
    decode 0b011110_00111_01101_1000000110000010#32 = .ok (.bne ⟨7#5, 13#5, 0x8182#16⟩) := rfl

theorem test_decode_cmpeq :
    decode 0b100100_01001_01011_01010_00000000000#32 = .ok (.cmpeq ⟨9#5, 11#5, 10#5, 0#11⟩) := rfl

theorem test_decode_cmpeqc :
    decode 0b110100_01001_10001_1000001000011100#32 = .ok (.cmpeqc ⟨9#5, 17#5, 0x821C#16⟩) := rfl

theorem test_decode_cmple :
    decode 0b100110_01011_10000_01100_00000000000#32 = .ok (.cmple ⟨11#5, 16#5, 12#5, 0#11⟩) := rfl

theorem test_decode_cmplec :
    decode 0b110110_01011_01111_1000001010110110#32 = .ok (.cmplec ⟨11#5, 15#5, 0x82B6#16⟩) := rfl

theorem test_decode_cmplt :
    decode 0b100101_01101_01110_01001_00000000000#32 = .ok (.cmplt ⟨13#5, 14#5, 9#5, 0#11⟩) := rfl

theorem test_decode_cmpltc :
    decode 0b110101_01101_01101_1000001101010000#32 = .ok (.cmpltc ⟨13#5, 13#5, 0x8350#16⟩) := rfl

theorem test_decode_div :
    decode 0b100011_01111_01100_01011_00000000000#32 = .ok (.div ⟨15#5, 12#5, 11#5, 0#11⟩) := rfl

theorem test_decode_divc :
    decode 0b110011_01111_10001_1000001111101010#32 = .ok (.divc ⟨15#5, 17#5, 0x83EA#16⟩) := rfl

theorem test_decode_jmp :
    decode 0b011011_10000_10000_0000000000000000#32 = .ok (.jmp ⟨16#5, 16#5, 0x0000#16⟩) := rfl

theorem test_decode_ld :
    decode 0b011000_10001_01111_1000010010000100#32 = .ok (.ld ⟨17#5, 15#5, 0x8484#16⟩) := rfl

theorem test_decode_ldr :
    decode 0b011111_10010_00000_1000010011010001#32 = .ok (.ldr ⟨18#5, 0#5, 0x84D1#16⟩) := rfl

theorem test_decode_mul :
    decode 0b100010_10100_01110_01011_00000000000#32 = .ok (.mul ⟨20#5, 14#5, 11#5, 0#11⟩) := rfl

theorem test_decode_mulc :
    decode 0b110010_10100_10010_1000010101101011#32 = .ok (.mulc ⟨20#5, 18#5, 0x856B#16⟩) := rfl

theorem test_decode_or :
    decode 0b101001_10110_01100_01101_00000000000#32 = .ok (.or ⟨22#5, 12#5, 13#5, 0#11⟩) := rfl

theorem test_decode_orc :
    decode 0b111001_10110_10000_1000011000000101#32 = .ok (.orc ⟨22#5, 16#5, 0x8605#16⟩) := rfl

theorem test_decode_shl :
    decode 0b101100_00100_10001_01010_00000000000#32 = .ok (.shl ⟨4#5, 17#5, 10#5, 0#11⟩) := rfl

theorem test_decode_shlc :
    decode 0b111100_00011_01110_1000011010011111#32 = .ok (.shlc ⟨3#5, 14#5, 0x869F#16⟩) := rfl

theorem test_decode_shr :
    decode 0b101101_00110_01111_01100_00000000000#32 = .ok (.shr ⟨6#5, 15#5, 12#5, 0#11⟩) := rfl

theorem test_decode_shrc :
    decode 0b111101_00101_10010_1000011100111001#32 = .ok (.shrc ⟨5#5, 18#5, 0x8739#16⟩) := rfl

theorem test_decode_sra :
    decode 0b101110_01000_01101_01001_00000000000#32 = .ok (.sra ⟨8#5, 13#5, 9#5, 0#11⟩) := rfl

theorem test_decode_srac :
    decode 0b111110_00111_10000_1000011111010011#32 = .ok (.srac ⟨7#5, 16#5, 0x87D3#16⟩) := rfl

theorem test_decode_sub :
    decode 0b100001_01010_01011_01011_00000000000#32 = .ok (.sub ⟨10#5, 11#5, 11#5, 0#11⟩) := rfl

theorem test_decode_subc :
    decode 0b110001_01001_01110_1000100001101101#32 = .ok (.subc ⟨9#5, 14#5, 0x886D#16⟩) := rfl

theorem test_decode_st :
    decode 0b011001_01010_01101_1000100010111010#32 = .ok (.st ⟨10#5, 13#5, 0x88BA#16⟩) := rfl

theorem test_decode_xor :
    decode 0b101010_01101_01111_01001_00000000000#32 = .ok (.xor ⟨13#5, 15#5, 9#5, 0#11⟩) := rfl

theorem test_decode_xorc :
    decode 0b111010_01100_10001_1000100101010100#32 = .ok (.xorc ⟨12#5, 17#5, 0x8954#16⟩) := rfl

theorem test_decode_priv :
    decode 0b000000_10000000000000000000000001#32 = .ok (.priv 0x2000001#26) := rfl

/-- 95_test_vectors.md 2.1: unused bits are ignored by the decoder's choice of instruction. -/
theorem test_decode_unused : decode 0x806117FF#32 = .ok (.add ⟨3#5, 1#5, 2#5, 0x7FF#11⟩) := rfl

theorem test_decode_illegal : decode 0x9C000000#32 = .error (.illegalOpcode 0x27#6) := rfl

/-- The bytes of 0x80611000 in memory order, then one byte more (rule R51). -/
theorem test_decode_bytes :
    decodeBytes [0x00#8, 0x10#8, 0x61#8, 0x80#8, 0xAA#8] = .ok (.add ⟨3#5, 1#5, 2#5, 0#11⟩, [0xAA#8]) := rfl

theorem test_decode_truncated : decodeBytes [0x00#8, 0x10#8, 0x61#8] = .error .truncated := rfl

theorem test_decode_table_word : decodeTableWord 32 0x6441FFFC = some (.st ⟨2#5, 1#5, 0xFFFC#16⟩) := rfl

/-- 95_test_vectors.md 1.2: the label 8 bytes before gives -3. -/
theorem test_label_literal : labelLiteral 0x104 0x10C = some 0xFFFD#16 := rfl

/-! ### Well-formedness: an ill-formed term for each check -/

theorem test_illFormed_unused : (Instr.add ⟨3#5, 1#5, 2#5, 1#11⟩).wellFormed = false := rfl

theorem test_illFormed_ldr_ra : (Instr.ldr ⟨2#5, 7#5, 3#16⟩).wellFormed = false := rfl

theorem test_illFormed_jmp_literal : (Instr.jmp ⟨31#5, 1#5, 0x1234#16⟩).wellFormed = false := rfl

/-! ### One step of each instruction (95_test_vectors.md section 2) -/

theorem test_add :
    regAfter 3#5 (run1 0x100#32 0x80611000#32 [(1#5, 0x7FFFFFFF#32), (2#5, 0x1#32)] []) = some 0x80000000#32 := by decide

theorem test_addc :
    regAfter 2#5 (run1 0x100#32 0xC05F8000#32 [] []) = some 0xFFFF8000#32 := by decide

theorem test_sub :
    regAfter 3#5 (run1 0x100#32 0x84611000#32 [(1#5, 0x3#32), (2#5, 0x5#32)] []) = some 0xFFFFFFFE#32 := by decide

theorem test_subc :
    regAfter 2#5 (run1 0x100#32 0xC4418000#32 [(1#5, 0x7FFFFFFF#32)] []) = some 0x80007FFF#32 := by decide

theorem test_subc_in_place :
    regAfter 1#5 (run1 0x100#32 0xC4210001#32 [(1#5, 0x5#32)] []) = some 0x4#32 := by decide

theorem test_mul :
    regAfter 3#5 (run1 0x100#32 0x88611000#32 [(1#5, 0x7#32), (2#5, 0xFFFFFFFD#32)] []) = some 0xFFFFFFEB#32 := by decide

theorem test_mulc :
    regAfter 2#5 (run1 0x100#32 0xC841FFFD#32 [(1#5, 0x7#32)] []) = some 0xFFFFFFEB#32 := by decide

theorem test_div :
    regAfter 3#5 (run1 0x100#32 0x8C611000#32 [(1#5, 0xFFFFFFF9#32), (2#5, 0x2#32)] []) = some 0xFFFFFFFD#32 := by decide

/-- Division by zero runs, with a free quotient (assumption log 8). -/
theorem test_div_by_zero_runs :
    pcAfter (run1 0x100#32 0x8C611000#32 [(1#5, 7#32)] []) = some 0x104#32 := by decide

theorem test_divc :
    regAfter 2#5 (run1 0x100#32 0xCC41FFFE#32 [(1#5, 0x7#32)] []) = some 0xFFFFFFFD#32 := by decide

/-- The overflowing division runs, with a free quotient (assumption log 9). -/
theorem test_divc_overflow_runs :
    pcAfter (run1 0x100#32 0xCC41FFFF#32 [(1#5, 0x80000000#32)] []) = some 0x104#32 := by decide

theorem test_cmpeq :
    regAfter 3#5 (run1 0x100#32 0x90611000#32 [(1#5, 0x5#32), (2#5, 0x5#32)] []) = some 0x1#32 := by decide

theorem test_cmpeqc :
    regAfter 2#5 (run1 0x100#32 0xD041FFFF#32 [(1#5, 0xFFFF#32)] []) = some 0x0#32 := by decide

theorem test_cmplt :
    regAfter 3#5 (run1 0x100#32 0x94611000#32 [(1#5, 0x80000000#32), (2#5, 0x7FFFFFFF#32)] []) = some 0x1#32 := by decide

theorem test_cmpltc :
    regAfter 2#5 (run1 0x100#32 0xD4418000#32 [(1#5, 0xFFFF8000#32)] []) = some 0x0#32 := by decide

theorem test_cmple :
    regAfter 3#5 (run1 0x100#32 0x98611000#32 [(1#5, 0x7FFFFFFF#32), (2#5, 0x80000000#32)] []) = some 0x0#32 := by decide

theorem test_cmplec :
    regAfter 2#5 (run1 0x100#32 0xD8418000#32 [(1#5, 0xFFFF8000#32)] []) = some 0x1#32 := by decide

theorem test_and :
    regAfter 3#5 (run1 0x100#32 0xA0611000#32 [(1#5, 0xF0F0F0F0#32), (2#5, 0xFF00FF0#32)] []) = some 0xF000F0#32 := by decide

theorem test_andc :
    regAfter 2#5 (run1 0x100#32 0xE041FF00#32 [(1#5, 0x12345678#32)] []) = some 0x12345600#32 := by decide

theorem test_or :
    regAfter 3#5 (run1 0x100#32 0xA4611000#32 [(1#5, 0xF0F0F0F0#32), (2#5, 0xFF00FF0#32)] []) = some 0xFFF0FFF0#32 := by decide

theorem test_orc :
    regAfter 2#5 (run1 0x100#32 0xE4418000#32 [(1#5, 0x12345678#32)] []) = some 0xFFFFD678#32 := by decide

theorem test_xor :
    regAfter 3#5 (run1 0x100#32 0xA8611000#32 [(1#5, 0xF0F0F0F0#32), (2#5, 0xFF00FF0#32)] []) = some 0xFF00FF00#32 := by decide

theorem test_xorc :
    regAfter 2#5 (run1 0x100#32 0xE841FFFF#32 [(1#5, 0x12345678#32)] []) = some 0xEDCBA987#32 := by decide

theorem test_shl :
    regAfter 3#5 (run1 0x100#32 0xB0611000#32 [(1#5, 0x12345678#32), (2#5, 0x24#32)] []) = some 0x23456780#32 := by decide

theorem test_shlc :
    regAfter 2#5 (run1 0x100#32 0xF0410024#32 [(1#5, 0x12345678#32)] []) = some 0x23456780#32 := by decide

theorem test_shr :
    regAfter 3#5 (run1 0x100#32 0xB4611000#32 [(1#5, 0x87654321#32), (2#5, 0x4#32)] []) = some 0x8765432#32 := by decide

theorem test_shrc :
    regAfter 2#5 (run1 0x100#32 0xF4410004#32 [(1#5, 0x87654321#32)] []) = some 0x8765432#32 := by decide

theorem test_sra :
    regAfter 3#5 (run1 0x100#32 0xB8611000#32 [(1#5, 0xFFFFFFF9#32), (2#5, 0x1#32)] []) = some 0xFFFFFFFC#32 := by decide

theorem test_srac :
    regAfter 8#5 (run1 0x100#32 0xF901001F#32 [(1#5, 0xFFFFFFF9#32)] []) = some 0xFFFFFFFF#32 := by decide

/-- Register 31 as destination: the value is discarded (2.6). -/
theorem test_register31_discards : regAfter 31#5 (run1 0x100#32 0xC3E10001#32 [(1#5, 5#32)] []) = some 0#32 := by decide

theorem test_ld_wraps :
    regAfter 2#5 (run1 0x100#32 0x60410008#32 [(1#5, 0xFFFFFFFC#32)] [(4, 0xCAFEF00D#32)]) = some 0xCAFEF00D#32 := by
  decide

/-- The address is that of the old register (2.7). -/
theorem test_ld_same_register :
    regAfter 1#5 (run1 0x100#32 0x60210000#32 [(1#5, 0x2000#32)] [(0x2000, 0x55#32)]) = some 0x55#32 := by decide

/-- The Supervisor bit is no part of LDR's address (2.7). -/
theorem test_ldr_supervisor :
    regAfter 2#5 (run1 0x80000100#32 0x7C400003#32 [] [(0x110, 0x12345678#32)]) = some 0x12345678#32 := by decide

theorem test_ldr_itself : regAfter 2#5 (run1 0x100#32 0x7C40FFFF#32 [] []) = some 0x7C40FFFF#32 := by decide

theorem test_st :
    memAfter 0x1FFC (run1 0x100#32 0x6441FFFC#32 [(1#5, 0x2000#32), (2#5, 0xA5A5A5A5#32)] []) = some 0xA5A5A5A5#32 := by
  decide

/-- A store over its own word (2.7). -/
theorem test_st_own_word :
    memAfter 0x100 (run1 0x100#32 0x645F0100#32 [(2#5, 0x600DF00D#32)] []) = some 0x600DF00D#32 := by decide

theorem test_beq_taken_supervisor :
    pcAfter (run1 0x80000100#32 0x74A10002#32 [] []) = some 0x8000010C#32 ∧
    regAfter 5#5 (run1 0x80000100#32 0x74A10002#32 [] []) = some 0x80000104#32 := by decide

/-- The target wraps in 31 bits (2.8). -/
theorem test_beq_wraps : pcAfter (run1 0#32 0x77FFFFFE#32 [] []) = some 0x7FFFFFFC#32 := by decide

theorem test_bne_taken : pcAfter (run1 0x10C#32 0x7BE1FFFD#32 [(1#5, 0x80000000#32)] []) = some 0x104#32 := by decide

theorem test_bne_not_taken : pcAfter (run1 0x10C#32 0x7BE1FFFD#32 [] []) = some 0x110#32 := by decide

/-- User mode cannot set the Supervisor bit, and the target is the old register (2.8). -/
theorem test_jmp_user :
    pcAfter (run1 0x100#32 0x6C210000#32 [(1#5, 0x80000200#32)] []) = some 0x200#32 ∧
    regAfter 1#5 (run1 0x100#32 0x6C210000#32 [(1#5, 0x80000200#32)] []) = some 0x104#32 := by decide

theorem test_jmp_to_user_mode : pcAfter (run1 0x80000040#32 0x6FFE0000#32 [(30#5, 0x123#32)] []) = some 0x120#32 := by
  decide

/-- Opcode 0x00 in user mode saves the updated PC in XP (2.9). -/
theorem test_priv_user : regAfter 30#5 (run1 0x100#32 0#32 [] []) = some 0x104#32 := by decide

theorem test_priv_supervisor :
    refusalOf (run1 0x80000100#32 0#32 [] []) = some (.privilegedImplementationDefined 0#26) := by decide

/-! ### Exceptions, interrupts, reset, memory -/

/-- An unassigned opcode at the last word of the space: the updated PC wraps (2.9). -/
theorem test_illegal_wraps : regAfter 30#5 (run1 0x7FFFFFFC#32 0x9C000000#32 [(30#5, 5#32)] []) = some 0#32 := by decide

theorem test_illegal_supervisor :
    faultOf (run1 0x80000100#32 0xFFFFFFFF#32 [] []) = some (.supervisorException .illegalInstruction) := by decide

/-- An interrupt taken at 0x104 (2.9): XP is 0x108 and nothing is fetched. -/
theorem test_interrupt : regAfter 30#5 (step ((start 0x104#32 [] []).setInterrupts [some 3])) = some 0x108#32 := by decide

/-- Not taken in supervisor mode (2.9). -/
theorem test_interrupt_held :
    pcAfter (step ((start 0x80000040#32 [] [(0x40, 0x83FFF800#32)]).setInterrupts [some 3])) = some 0x80000044#32 := by
  decide

theorem test_unwritten_fetch : faultOf (step State.reset) = some (.unwrittenMemory 0) := by decide

theorem test_reset_wf : Memory.wf State.reset.mem = true := by decide

/-- The host's placement at reset is fetched and run: ADDC(R31, 5, R1). -/
theorem test_withFetchWord :
    regAfter 1#5 (step (State.reset.withFetchWord 32 0xC03F0005)) = some 5#32 := by decide

/-- It withholds an interrupt presented at that boundary. -/
theorem test_withFetchWord_interrupt :
    regAfter 1#5 (step (((start 0x100#32 [] []).setInterrupts [some 3]).withFetchWord 32 0xC03F0005)) = some 5#32 := by
  decide

/-! ### Witnesses: for every statement with hypotheses, values that meet them together -/

theorem witness_EncodeOfDecode : decode 0x80611000#32 = .ok (.add ⟨3#5, 1#5, 2#5, 0#11⟩) := rfl

theorem witness_UnusedBitsDoNotMatter_unused :
    decode 0x80611000#32 = .ok (.add ⟨3#5, 1#5, 2#5, 0#11⟩) ∧ decode 0x806117FF#32 = .ok (.add ⟨3#5, 1#5, 2#5, 0x7FF#11⟩) ∧
    (0x80611000#32 ^^^ 0x806117FF#32) &&& ~~~(Instr.add ⟨3#5, 1#5, 2#5, 0#11⟩).shouldBeZero = 0#32 :=
  ⟨rfl, rfl, by decide⟩

theorem witness_UnusedBitsDoNotMatter_ldr :
    decode 0x7C400003#32 = .ok (.ldr ⟨2#5, 0#5, 3#16⟩) ∧ decode 0x7C470003#32 = .ok (.ldr ⟨2#5, 7#5, 3#16⟩) ∧
    (0x7C400003#32 ^^^ 0x7C470003#32) &&& ~~~(Instr.ldr ⟨2#5, 0#5, 3#16⟩).shouldBeZero = 0#32 :=
  ⟨rfl, rfl, by decide⟩

theorem witness_UnusedBitsDoNotMatter_jmp :
    decode 0x6FE10000#32 = .ok (.jmp ⟨31#5, 1#5, 0#16⟩) ∧ decode 0x6FE11234#32 = .ok (.jmp ⟨31#5, 1#5, 0x1234#16⟩) ∧
    (0x6FE10000#32 ^^^ 0x6FE11234#32) &&& ~~~(Instr.jmp ⟨31#5, 1#5, 0#16⟩).shouldBeZero = 0#32 :=
  ⟨rfl, rfl, by decide⟩

theorem witness_WellFormedIsShouldBeZero : decode 0x6FE11234#32 = .ok (.jmp ⟨31#5, 1#5, 0x1234#16⟩) := rfl

/-- The first label out of reach and the last ones within it, on either side, and a label no multiple of 4 away. -/
theorem witness_LabelLiteralReachesLabel :
    labelLiteral 0x40100 (addrPart 0x20100#32).toNat = some 0x7FFF#16 ∧ labelLiteral 0x40104 0x20100 = none ∧
    labelLiteral 0x104 (addrPart 0x80020100#32).toNat = some 0x8000#16 ∧ labelLiteral 0x100 0x20100 = none ∧
    labelLiteral 0x102 0x100 = none ∧ (addrPart 0x20100#32).toNat + 4 < 2 ^ 31 := by decide

/-- A label reached from the last word of the space, where LDR's clause does not apply and the branch clause does. -/
theorem witness_LabelLiteralReachesLabel_lastWord :
    labelLiteral 0x7FFFFFF8 (addrPart 0x7FFFFFFC#32).toNat = some 0xFFFE#16 ∧
    ¬(addrPart 0x7FFFFFFC#32).toNat + 4 < 2 ^ 31 := by decide

theorem witness_ArithmeticGivesLow32Bits_divc :
    ((start 0x100#32 [(2#5, 0xFFFFFFFE#32)] []).readReg 2#5).toInt = (0xFFFE#16 : Literal).toInt := by decide

theorem witness_DivisionTruncatesTowardZero :
    (0xFFFFFFFF#32 : Word) ≠ 0#32 ∧
    ¬((0x80000001#32 : Word).toInt = -2 ^ 31 ∧ (0xFFFFFFFF#32 : Word).toInt = -1) ∧
    (0xFFFF#16 : Literal) ≠ 0#16 ∧ ¬((0x80000001#32 : Word).toInt = -2 ^ 31 ∧ (0xFFFF#16 : Literal).toInt = -1) := by
  decide

/-- The last word of the address space, above bit 31. -/
theorem witness_LoadReadsTheWordAtItsAddress :
    (0xFFFFFFFC#32 : Word) =
      BitVec.ofInt 32 (((start 0x100#32 [(1#5, 4#32)] [(0xFFFFFFFC, 0x77#32)]).readReg 1#5).toInt + (0xFFF8#16 : Literal).toInt) ∧
    (0xFFFFFFFC#32 : Word).toNat % 4 = 0 ∧
    Memory.readWord (start 0x100#32 [(1#5, 4#32)] [(0xFFFFFFFC, 0x77#32)]).mem (0xFFFFFFFC#32 : Word).toNat = some 0x77#32 := by
  decide

/-- The sum at its lowest value in range, 0: LDR at 0x100 with literal -65. -/
theorem witness_LoadRelativeReadsTheWord_low :
    (((0x100#32 : Word).toNat + 4) % 2 ^ 31 : Nat) + 4 * (0xFFBF#16 : Literal).toInt = (0 : Int) ∧
    Memory.readWord (start 0x100#32 [] [(0, 0x99#32)]).mem (0 : Int).toNat = some 0x99#32 := by decide

/-- The sum at its highest value in range, 2^31 - 4. -/
theorem witness_LoadRelativeReadsTheWord_high :
    (((0xFFFFFFF0#32 : Word).toNat + 4) % 2 ^ 31 : Nat) + 4 * (2#16 : Literal).toInt = (0x7FFFFFFC : Int) ∧
    Memory.readWord (start 0xFFFFFFF0#32 [] [(0x7FFFFFFC, 0x99#32)]).mem (0x7FFFFFFC : Int).toNat = some 0x99#32 := by
  decide

/-- The sum just below the range, -4, with both candidate words there. -/
theorem witness_LoadRelativeReadsTheWord_below :
    (((0#32 : Word).toNat + 4) % 2 ^ 31 : Nat) + 4 * (0xFFFE#16 : Literal).toInt = (-4 : Int) ∧
    (-4 % 2 ^ 31 : Int).toNat = 0x7FFFFFFC ∧ (-4 % 2 ^ 32 : Int).toNat = 0xFFFFFFFC ∧
    Memory.readWord (start 0#32 [] [(0x7FFFFFFC, 1#32), (0xFFFFFFFC, 2#32)]).mem 0x7FFFFFFC = some 1#32 ∧
    Memory.readWord (start 0#32 [] [(0x7FFFFFFC, 1#32), (0xFFFFFFFC, 2#32)]).mem 0xFFFFFFFC = some 2#32 := by decide

/-- The sum just above the range, 2^31, with both candidate words there. -/
theorem witness_LoadRelativeReadsTheWord_above :
    (((0x7FFFFFF0#32 : Word).toNat + 4) % 2 ^ 31 : Nat) + 4 * (3#16 : Literal).toInt = (2 ^ 31 : Int) ∧
    Memory.readWord (start 0x7FFFFFF0#32 [] [(0, 1#32), (0x80000000, 2#32)]).mem (2 ^ 31 % 2 ^ 31 : Int).toNat = some 1#32 ∧
    Memory.readWord (start 0x7FFFFFF0#32 [] [(0, 1#32), (0x80000000, 2#32)]).mem (2 ^ 31 % 2 ^ 32 : Int).toNat = some 2#32 := by
  decide

theorem witness_StoreWritesTheWordAtItsAddress :
    (0xFFFFFFFC#32 : Word) =
      BitVec.ofInt 32 (((start 0x100#32 [(1#5, 4#32)] []).readReg 1#5).toInt + (0xFFF8#16 : Literal).toInt) ∧
    (0xFFFFFFFC#32 : Word).toNat % 4 = 0 := by decide

theorem witness_MisalignedAccessIsRefusedOrMasked :
    (baseDisplacement (start 0x100#32 [(1#5, 0x2000#32)] [(0x2000, 9#32)]) ⟨2#5, 1#5, 3#16⟩).toNat % 4 ≠ 0 ∧
    (0x2000#32 : Word).toNat =
      (baseDisplacement (start 0x100#32 [(1#5, 0x2000#32)] [(0x2000, 9#32)]) ⟨2#5, 1#5, 3#16⟩).toNat / 4 * 4 ∧
    Memory.readWord (start 0x100#32 [(1#5, 0x2000#32)] [(0x2000, 9#32)]).mem (0x2000#32 : Word).toNat = some 9#32 := by
  decide

/-- Only the last of the four bytes has no value. -/
theorem witness_UnwrittenLoadFaults :
    (baseDisplacement ((start 0x100#32 [] []).setMem [(0, 1#8), (1, 2#8), (2, 3#8)]) ⟨2#5, 31#5, 0#16⟩).toNat % 4 = 0 ∧
    Memory.readByte ((start 0x100#32 [] []).setMem [(0, 1#8), (1, 2#8), (2, 3#8)]).mem 3 = none := by decide

theorem witness_BeqBranchesOnZero :
    ((1#5 : RegNum) ≠ 2#5 ∨ (1#5 : RegNum) = 31#5) ∧ (start 0x100#32 [] []).readReg 1#5 = 0#32 ∧
    (start 0x100#32 [(1#5, 0x80000000#32)] []).readReg 1#5 ≠ 0#32 := by decide

theorem witness_BneBranchesOnNonZero :
    ((31#5 : RegNum) ≠ 31#5 ∨ (31#5 : RegNum) = 31#5) ∧ (start 0x100#32 [] []).readReg 31#5 = 0#32 ∧
    ((1#5 : RegNum) ≠ 31#5 ∨ (1#5 : RegNum) = 31#5) ∧ (start 0x100#32 [(1#5, 1#32)] []).readReg 1#5 ≠ 0#32 := by decide

/-- Both readings at values where they differ: the old value is 0, the link is 0x104. -/
theorem witness_BranchOnItsOwnLink :
    (1#5 : RegNum) = 1#5 ∧ (1#5 : RegNum) ≠ 31#5 ∧
    (if true = true then pcInc (start 0x100#32 [] []).pc else (start 0x100#32 [] []).readReg 1#5) = 0x104#32 ∧
    (if false = true then pcInc (start 0x100#32 [] []).pc else (start 0x100#32 [] []).readReg 1#5) = 0#32 := by decide

theorem witness_PrivilegedOpcodeTrapsInUserMode : (start 0x7FFFFFFC#32 [] []).supervisor = false := by decide

theorem witness_PrivilegedOpcodeRefusedInSupervisorMode : (start 0x80000000#32 [] []).supervisor = true := by decide

theorem witness_ExceptionEntryFromUserMode : (start 0x7FFFFFFC#32 [] []).supervisor = false := by decide

/-- The lowest and the highest unassigned opcode, in user mode and in supervisor mode. -/
theorem witness_IllegalOpcodeRaises :
    (interruptTaken (start 0x100#32 [] [(0x100, 0x04000000#32)]) = none ∧
      FetchesWord (start 0x100#32 [] [(0x100, 0x04000000#32)]) 0x04000000#32 ∧
      (start 0x100#32 [] [(0x100, 0x04000000#32)]).supervisor = false) ∧
    (interruptTaken (start 0x80000100#32 [] [(0x100, 0xFFFFFFFF#32)]) = none ∧
      FetchesWord (start 0x80000100#32 [] [(0x100, 0xFFFFFFFF#32)]) 0xFFFFFFFF#32 ∧
      (start 0x80000100#32 [] [(0x100, 0xFFFFFFFF#32)]).supervisor = true) := by decide

theorem witness_IllegalOpcodeRaises_decode :
    decode 0x04000000#32 = .error (.illegalOpcode 1#6) ∧ decode 0xFFFFFFFF#32 = .error (.illegalOpcode 0x3F#6) :=
  ⟨rfl, rfl⟩

theorem witness_InterruptPreemptsUserInstruction :
    ((start 0x100#32 [] []).setInterrupts [some 3, none]).supervisor = false ∧
    ((start 0x100#32 [] []).setInterrupts [some 3, none]).interrupts = some 3 :: [none] := by decide

theorem witness_SupervisorModeHoldsInterrupts : (start 0x80000040#32 [] [(0x40, 0x83FFF800#32)]).supervisor = true := by
  decide

theorem witness_StepRunsDecodedInstruction :
    (interruptTaken ((start 0x100#32 [] [(0x100, 0x83FFF800#32)]).setInterrupts [none, some 3]) = none ∧
      FetchesWord ((start 0x100#32 [] [(0x100, 0x83FFF800#32)]).setInterrupts [none, some 3]) 0x83FFF800#32) ∧
    (interruptTaken ((start 0xFFFFFFFC#32 [] [(0x7FFFFFFC, 0x83FFF800#32)]).setInterrupts [some 3]) = none ∧
      FetchesWord ((start 0xFFFFFFFC#32 [] [(0x7FFFFFFC, 0x83FFF800#32)]).setInterrupts [some 3]) 0x83FFF800#32) := by decide

theorem witness_StepRunsDecodedInstruction_decode : decode 0x83FFF800#32 = .ok (.add ⟨31#5, 31#5, 31#5, 0#11⟩) := rfl

theorem witness_TrapReturnsAfterTheWord :
    PcAligned (start 0x44#32 [] []) ∧
    ∃ t, raise .illegalInstruction (start 0x44#32 [] []) = .next t ∧
      (start 0x8000000C#32 [(30#5, 0x48#32)] []).readReg xpNum = t.readReg xpNum :=
  ⟨by decide, _, rfl, by decide⟩

/-- The last instruction the statement covers, at 0x7FFFFFF8. -/
theorem witness_InterruptReturnsToTheInstruction :
    PcAligned (start 0x7FFFFFF8#32 [] []) ∧ (addrPart (start 0x7FFFFFF8#32 [] []).pc).toNat ≠ 0x7FFFFFFC ∧
    ∃ t, raise (.interrupt 0) (start 0x7FFFFFF8#32 [] []) = .next t ∧
      (start 0x8000000C#32 [(30#5, 0x7FFFFFFC#32)] []).readReg xpNum = t.readReg xpNum :=
  ⟨by decide, by decide, _, rfl, by decide⟩

theorem witness_SupervisorModeEnteredOnlyByException :
    ∃ t, step (start 0x100#32 [] [(0x100, 0#32)]) = .next t ∧
      (start 0x100#32 [] [(0x100, 0#32)]).supervisor = false ∧ t.supervisor = true :=
  ⟨takeException .illegalInstruction (start 0x100#32 [] [(0x100, 0#32)]), rfl, by decide, takeException_supervisor _ _⟩

theorem witness_SupervisorModeLeftOnlyByJmp :
    ∃ t, step (start 0x80000040#32 [(30#5, 0x120#32)] [(0x40, 0x6FFE0000#32)]) = .next t ∧
      (start 0x80000040#32 [(30#5, 0x120#32)] [(0x40, 0x6FFE0000#32)]).supervisor = true ∧ t.supervisor = false :=
  ⟨_, rfl, by decide, by decide⟩

theorem witness_InstructionsAreTheSameInBothModes :
    (Instr.ldr ⟨2#5, 0#5, 3#16⟩).opcode ∉ [0x1D#6, 0x1E#6, 0x1B#6, 0x00#6] := by decide

theorem witness_StepKeepsInvariant :
    Inv (start 0x100#32 [] [(0x100, 0x645F0100#32)]) ∧ ∃ t, step (start 0x100#32 [] [(0x100, 0x645F0100#32)]) = .next t :=
  ⟨by decide, _, rfl⟩

theorem witness_FirstStepRunsLocationZero :
    (start 0x80000000#32 [] [(0, 0x83FFF800#32)]).pc = State.reset.pc ∧
    Memory.readWord (start 0x80000000#32 [] [(0, 0x83FFF800#32)]).mem 0 = some 0x83FFF800#32 := by decide

theorem witness_OnlyMemoryAndPrivilegedInstructionsStop :
    (Instr.div ⟨3#5, 1#5, 31#5, 0#11⟩).opcode ∉ [0x18#6, 0x1F#6, 0x19#6, 0x00#6] := by decide

/-- At the last word of the 31-bit space, in supervisor mode. -/
theorem witness_SequentialAdvanceWrapsIn31Bits :
    (Instr.add ⟨31#5, 31#5, 31#5, 0#11⟩).opcode ∉ [0x1D#6, 0x1E#6, 0x1B#6, 0x00#6] ∧
    ∃ t, exec (.add ⟨31#5, 31#5, 31#5, 0#11⟩) (start 0xFFFFFFFC#32 [] []) = .next t ∧ t.pc = 0x80000000#32 :=
  ⟨by decide, _, rfl, by decide⟩

theorem witness_OnlyTheNamedRegisterChanges :
    (∃ t, exec (.priv 0#26) (start 0x100#32 [] []) = .next t) ∧ (Instr.priv 0#26).opcode = 0x00#6 ∧
    (∃ t, exec (.st ⟨2#5, 1#5, 0#16⟩) (start 0x100#32 [] []) = .next t) ∧
    (Instr.st ⟨2#5, 1#5, 0#16⟩).opcode = 0x19#6 ∧
    (∃ t, exec (.add ⟨3#5, 1#5, 2#5, 0#11⟩) (start 0x100#32 [] []) = .next t) ∧
    (Instr.add ⟨3#5, 1#5, 2#5, 0#11⟩).opcode ≠ 0x00#6 ∧ (4#5 : RegNum) ≠ rcField (encode (.add ⟨3#5, 1#5, 2#5, 0#11⟩)) :=
  ⟨⟨_, rfl⟩, rfl, ⟨_, rfl⟩, rfl, ⟨_, rfl⟩, by decide, by decide⟩

theorem witness_Register31IsABitBucket :
    decode 0xC0410001#32 = .ok (.addc ⟨2#5, 1#5, 1#16⟩) ∧
    decode (0xC0410001#32 ||| 0x03E00000#32) = .ok (.addc ⟨31#5, 1#5, 1#16⟩) ∧
    (Instr.addc ⟨2#5, 1#5, 1#16⟩).opcode ∉ [0x19#6, 0x00#6] ∧
    (Instr.addc ⟨2#5, 1#5, 1#16⟩).opcode ∉ [0x1D#6, 0x1E#6] := ⟨rfl, rfl, by decide, by decide⟩

/-- A branch with Ra = 31 = Rc meets the last premise too. -/
theorem witness_Register31IsABitBucket_branch :
    decode 0x77FFFFFF#32 = .ok (.beq ⟨31#5, 31#5, 0xFFFF#16⟩) ∧
    decode (0x77FFFFFF#32 ||| 0x03E00000#32) = .ok (.beq ⟨31#5, 31#5, 0xFFFF#16⟩) ∧
    (Instr.beq ⟨31#5, 31#5, 0xFFFF#16⟩).opcode ∉ [0x19#6, 0x00#6] ∧ raField 0x77FFFFFF#32 = 31#5 :=
  ⟨rfl, rfl, by decide, rfl⟩

/-- The last of the four bytes stored. -/
theorem witness_OnlyStoreChangesMemory :
    ∃ t, step (start 0x100#32 [(2#5, 0x11223344#32)] [(0x100, 0x645F0200#32)]) = .next t ∧
      Memory.readByte t.mem 0x203 ≠
        Memory.readByte (start 0x100#32 [(2#5, 0x11223344#32)] [(0x100, 0x645F0200#32)]).mem 0x203 :=
  ⟨_, rfl, by decide⟩

theorem witness_LoadsSeeTheLastStore :
    ∃ t, exec (.st ⟨2#5, 31#5, 0x200#16⟩) (start 0x100#32 [(2#5, 7#32)] []) = .next t ∧
      (baseDisplacement (start 0x100#32 [(2#5, 7#32)] []) ⟨2#5, 31#5, 0x200#16⟩).toNat % 4 = 0 ∧
      baseDisplacement t ⟨3#5, 31#5, 0x200#16⟩ =
        baseDisplacement (start 0x100#32 [(2#5, 7#32)] []) ⟨2#5, 31#5, 0x200#16⟩ ∧
      0x204 ≤ 0x204 ∧ (baseDisplacement (start 0x100#32 [(2#5, 7#32)] []) ⟨2#5, 31#5, 0x200#16⟩).toNat + 4 = 0x204 :=
  ⟨_, rfl, by decide, by decide, by decide, by decide⟩

theorem witness_StoredWordIsFetchedNext :
    (∃ t, exec (.st ⟨2#5, 31#5, 0x104#16⟩) (start 0x100#32 [(2#5, 0x83FFF800#32)] []) = .next t ∧
      interruptTaken t = none) ∧
    baseDisplacement (start 0x100#32 [(2#5, 0x83FFF800#32)] []) ⟨2#5, 31#5, 0x104#16⟩ =
      fetchAddress (pcInc (start 0x100#32 [(2#5, 0x83FFF800#32)] []).pc) ∧
    PcAligned (start 0x100#32 [(2#5, 0x83FFF800#32)] []) ∧
    decode ((start 0x100#32 [(2#5, 0x83FFF800#32)] []).readReg 2#5) = .ok (.add ⟨31#5, 31#5, 31#5, 0#11⟩) :=
  ⟨⟨_, rfl, rfl⟩, by decide, by decide, rfl⟩

end Sys2Proof.Tests
end

section
/-! SUPPORT. What a step is, branch by branch (rule R13), as equations; stops included. -/

namespace Sys2Proof.Machine

/-- Only user mode spends the environment's choice at the boundary (rules R208, R212). -/
theorem passBoundary_eq_ite (s : State) :
    passBoundary s = if s.supervisor = true then s else s.setInterrupts s.interrupts.tail := rfl

/-- In user mode the environment's choice at the boundary is spent (rule R208). -/
theorem passBoundary_user {s : State} (h : s.supervisor = false) :
    passBoundary s = s.setInterrupts s.interrupts.tail := by
  simp [passBoundary_eq_ite, h]

/-- A word that decodes is run as its instruction (rule R13 (5)). -/
theorem dispatchWord_of_decode_ok {w : Word} {i : Instr} (h : decode w = .ok i)
    (run : Instr → State → Answer State) (s : State) : dispatchWord run s w = run i s := by
  simp only [dispatchWord, h]

/-- An interrupt taken at the boundary is the whole step: the instruction there is neither fetched nor run
(rule R13 (1)). -/
theorem step_of_interruptTaken {s : State} {source : Nat} (h : interruptTaken s = some source) :
    step s = .next (takeException (.interrupt source) (passBoundary s)) := by
  obtain ⟨huser, -⟩ := interruptTaken_eq_some.1 h
  have hraise : step s = raise (.interrupt source) (passBoundary s) := by simp only [step, stepWith, h]
  rw [hraise, raise_user (by rw [passBoundary_supervisor, huser])]

/-- Where no interrupt is taken, the step is what the fetched word does after the boundary (rule R13 (2) to (5)). -/
theorem step_of_fetchesWord {s : State} {w : Word} (hnone : interruptTaken s = none) (hw : FetchesWord s w) :
    step s = dispatchWord exec (passBoundary s) w := by
  simp only [step, stepWith, hnone, fetch_eq_next.2 hw, andThen_next]

end Sys2Proof.Machine
end

section
/-! PROOFS. The obligations about the scope of a step (00_scope.md, rule R13). -/

namespace Sys2Proof.Machine

/-- Settles O27: the presented interrupt is the one taken, and exception entry from the state in which the presentation
is spent is what R203 says of it. -/
theorem interruptPreemptsUserInstruction : Obligations.InterruptPreemptsUserInstruction := by
  intro s source rest huser hlist
  have htaken : interruptTaken s = some source := interruptTaken_eq_some.2 ⟨huser, rest, hlist⟩
  have hspent : passBoundary s = s.setInterrupts rest := by rw [passBoundary_user huser, hlist, List.tail_cons]
  refine ⟨takeException (.interrupt source) (s.setInterrupts rest), ?_, takeException_entersHandler _ _⟩
  rw [step_of_interruptTaken htaken, hspent]

/-- Settles O29: the step is the dispatch of the fetched word, which is its instruction, run in the state
after the boundary. -/
theorem stepRunsDecodedInstruction : Obligations.StepRunsDecodedInstruction := by
  intro s w i hnone hw hdecode
  rw [← passBoundary_eq_ite]
  calc step s
      = dispatchWord exec (passBoundary s) w := step_of_fetchesWord hnone hw
    _ = exec i (passBoundary s) := dispatchWord_of_decode_ok hdecode exec _

end Sys2Proof.Machine
end

section
/-! SUPPORT. Words as arithmetic: bits 1:0, the Supervisor bit, the updated PC (rules R24, R27, R54); and the address of a
data access. -/

namespace Sys2Proof.Machine

/-- Bits 1:0 clear is a multiple of 4. -/
theorem lowBits_eq_zero_iff_mod_four (a : Word) : a.extractLsb' 0 2 = 0#2 ↔ a.toNat % 4 = 0 := by
  rw [← BitVec.toNat_inj]
  simp

/-- Clearing bits 1:0 rounds down to a multiple of 4. -/
theorem toNat_and_mask (a : Word) : (a &&& 0xFFFFFFFC#32).toNat = a.toNat / 4 * 4 := by
  have hshift : a &&& 0xFFFFFFFC#32 = a >>> 2 <<< 2 := by
    rw [show (0xFFFFFFFC#32 : Word) = BitVec.allOnes 32 <<< 2 from rfl]
    apply BitVec.eq_of_getLsbD_eq
    intro i hi
    by_cases h : i < 2
    · rcases (by omega : i = 0 ∨ i = 1) with rfl | rfl <;> simp
    · have hadd : 2 + (i - 2) = i := by omega
      have hi2 : i - 2 < 32 := by omega
      simp only [BitVec.getLsbD_and, BitVec.getLsbD_shiftLeft, BitVec.getLsbD_ushiftRight, BitVec.getLsbD_allOnes]
      simp [h, hi, hi2, hadd]
  have hlt := a.isLt
  rw [hshift, BitVec.toNat_shiftLeft, BitVec.toNat_ushiftRight, Nat.shiftRight_eq_div_pow, Nat.shiftLeft_eq]
  omega

/-- Where LD and ST access memory at all, they access the longword that holds their effective address (rule R54). -/
theorem dataAddress_toNat {ea a : Word} (h : dataAddress ea = .next a) : a.toNat = ea.toNat / 4 * 4 := by
  obtain ⟨haligned, rfl | ⟨-, rfl⟩⟩ := dataAddress_eq_next h
  · rw [lowBits_eq_zero_iff_mod_four] at haligned
    omega
  · exact toNat_and_mask ea

/-- A word with a byte nothing has written has no value (rule R35; assumption log 5). -/
theorem Memory.readWord_eq_none {m : Memory} {a i : Nat} (hi : i < 4) (h : Memory.readByte m (a + i) = none) :
    Memory.readWord m a = none := by
  rcases (by omega : i = 0 ∨ i = 1 ∨ i = 2 ∨ i = 3) with rfl | rfl | rfl | rfl
  · simp only [Nat.add_zero] at h
    simp [Memory.readWord, h]
  · simp [Memory.readWord, h]
  · simp [Memory.readWord, h]
  · simp [Memory.readWord, h]

/-- A read in plain memory of a word without a value faults (rule R35; assumption log 5). -/
theorem memRead_of_unwritten {m : Memory} {a : Word} (hplain : plainMemory a = true)
    (h : Memory.readWord m a.toNat = none) : memRead m a = .fault (.unwrittenMemory a.toNat) := by
  simp [memRead, hplain, h]

/-- A branch offset is a multiple of 4 (rule R85 (b)). -/
@[simp] theorem lowBits_longwordOffset (lit : Literal) : (longwordOffset lit).extractLsb' 0 2 = 0#2 := by
  apply BitVec.eq_of_getLsbD_eq
  intro i hi
  simp [longwordOffset]
  omega

/-- A word is its Supervisor bit and its address part, as arithmetic (rule R24). -/
theorem toNat_eq_supBit_addrPart (p : Word) : p.toNat = (supBit p).toNat * 2 ^ 31 + (addrPart p).toNat := by
  conv_lhs => rw [← supBit_append_addrPart p]
  rw [BitVec.toNat_append, ← Nat.shiftLeft_add_eq_or_of_lt (addrPart p).isLt, Nat.shiftLeft_eq]

/-- The updated PC, as arithmetic: the address part wraps in 31 bits, the Supervisor bit stays (rule R27). -/
theorem toNat_pcInc (p : Word) : (pcInc p).toNat = p.toNat / 2 ^ 31 * 2 ^ 31 + (p.toNat + 4) % 2 ^ 31 := by
  have hp := toNat_eq_supBit_addrPart p
  have hlt := (addrPart p).isLt
  rw [toNat_eq_supBit_addrPart (pcInc p), supBit_pcInc, addrPart_pcInc, BitVec.toNat_add]
  have : (4#31).toNat = 4 := rfl
  omega

/-- The Supervisor bit of a word is set exactly where the word is 2^31 or more (rule R24). -/
theorem supBit_eq_one_iff (p : Word) : supBit p = 1#1 ↔ 2 ^ 31 ≤ p.toNat := by
  have hp := toNat_eq_supBit_addrPart p
  have hlt := (addrPart p).isLt
  have hbit := (supBit p).isLt
  rw [← BitVec.toNat_inj]
  have : (1#1).toNat = 1 := rfl
  omega

/-- JMP stays in supervisor mode exactly where bit 31 of its target is set too (rules R26, R172). -/
theorem supBit_jumpPc_eq_one_iff (p target : Word) :
    supBit (jumpPc p target) = 1#1 ↔ supBit p = 1#1 ∧ 2 ^ 31 ≤ target.toNat := by
  have hand : ∀ b c : BitVec 1, b &&& c = 1#1 ↔ b = 1#1 ∧ c = 1#1 := by decide
  rw [supBit_jumpPc, supBit_and_mask, hand, supBit_eq_one_iff target]

end Sys2Proof.Machine
end
section
/-! SUPPORT. What one instruction can do to each part of the state: pc, mode and memory, read off `exec_eq_next`. -/

namespace Sys2Proof.Machine

/-- An instruction that is not BEQ, BNE, JMP or opcode 0x00 goes on to the next one (rules R27, R173). -/
theorem exec_pc_of_sequential {i : Instr} {s t : State} (h : exec i s = .next t)
    (hi : i.opcode ∉ [0x1D#6, 0x1E#6, 0x1B#6, 0x00#6]) : t.pc = pcInc s.pc := by
  obtain ⟨rc, v, rfl⟩ | ⟨o, b, rfl | rfl, -⟩ | ⟨o, rfl, -⟩ | ⟨o, a, -, -, -, rfl⟩ | ⟨b, rfl, -⟩ := exec_eq_next h
  · simp
  · exact absurd hi (by simp [Instr.opcode])
  · exact absurd hi (by simp [Instr.opcode])
  · exact absurd hi (by simp [Instr.opcode])
  · simp
  · exact absurd hi (by simp [Instr.opcode])

/-- An instruction keeps the mode, but for JMP, which takes over the Supervisor bit of its target if it is set now, and
opcode 0x00, which traps from user mode (rules R26, R172, R180, R205). -/
theorem exec_supervisor {i : Instr} {s t : State} (h : exec i s = .next t) :
    t.supervisor = s.supervisor ∨
    (∃ o, i = .jmp o ∧ (t.supervisor = true ↔ s.supervisor = true ∧ 2 ^ 31 ≤ (s.readReg o.ra).toNat)) ∨
    (s.supervisor = false ∧ t = takeException .illegalInstruction s) := by
  obtain ⟨rc, v, rfl⟩ | ⟨o, b, -, rfl⟩ | ⟨o, rfl, rfl⟩ | ⟨o, a, -, -, -, rfl⟩ | ⟨b, -, huser, rfl⟩ := exec_eq_next h
  · exact .inl (by simp)
  · refine .inl ?_
    cases b <;> simp [State.supervisor]
  · refine .inr (.inl ⟨o, rfl, ?_⟩)
    simpa [State.supervisor] using supBit_jumpPc_eq_one_iff s.pc (s.readReg o.ra)
  · exact .inl (by simp)
  · exact .inr (.inr ⟨huser, rfl⟩)

/-- An instruction keeps all of memory, but for ST, which replaces one longword (rules R32, R36). -/
theorem exec_mem {i : Instr} {s t : State} (h : exec i s = .next t) :
    t.mem = s.mem ∨
    ∃ o a, i = .st o ∧ dataAddress (baseDisplacement s o) = .next a ∧ plainMemory a = true ∧
      t.mem = Memory.writeWord s.mem a.toNat (s.readReg o.rc) := by
  obtain ⟨rc, v, rfl⟩ | ⟨o, b, -, rfl⟩ | ⟨o, -, rfl⟩ | ⟨o, a, rfl, ha, hplain, rfl⟩ | ⟨b, -, -, rfl⟩ := exec_eq_next h
  · exact .inl (by simp)
  · exact .inl (by simp)
  · exact .inl (by simp)
  · exact .inr ⟨o, a, rfl, ha, hplain, rfl⟩
  · exact .inl (by simp)

/-- Every instruction keeps the pc a multiple of 4 (rule R25). -/
theorem exec_pcAligned {i : Instr} {s t : State} (h : exec i s = .next t) (hs : PcAligned s) : PcAligned t := by
  have hnext : (pcInc s.pc).extractLsb' 0 2 = 0#2 := pcAligned_pcInc hs
  obtain ⟨rc, v, rfl⟩ | ⟨o, b, -, rfl⟩ | ⟨o, -, rfl⟩ | ⟨o, a, -, -, -, rfl⟩ | ⟨b, -, -, rfl⟩ := exec_eq_next h
  · rw [PcAligned, State.advance_pc, State.writeReg_pc]; exact hnext
  · rw [PcAligned, State.setPc_pc]
    split
    · exact pcAligned_pcTarget hnext (lowBits_longwordOffset o.lit)
    · exact hnext
  · rw [PcAligned, State.setPc_pc]; exact pcAligned_jumpPc _ _
  · rw [PcAligned, State.advance_pc, State.setMem_pc]; exact hnext
  · rw [PcAligned, takeException_pc]; exact pcAligned_vectorPc _

/-- Every instruction keeps the memory in canonical form (rule R31). -/
theorem exec_wf {i : Instr} {s t : State} (h : exec i s = .next t) (hs : Memory.wf s.mem = true) :
    Memory.wf t.mem = true := by
  obtain hmem | ⟨o, a, -, -, hplain, hmem⟩ := exec_mem h
  · rw [hmem]; exact hs
  · rw [hmem]; exact Memory.wf_writeWord _ hs (plainMemory_lt hplain)

/-- Exception entry after the boundary is passed, seen from before it: XP holds the updated PC, and no other register
and no memory has changed (rule R206). -/
theorem takeException_passBoundary (k : ExcKind) (s : State) :
    WritesRegister s (takeException k (passBoundary s)) 30#5 (pcInc s.pc) ∧
    (takeException k (passBoundary s)).pc = vectorPc k ∧ KeepsMemory s (takeException k (passBoundary s)) := by
  obtain ⟨hregs, hpc, -, -⟩ := takeException_entersHandler k (passBoundary s)
  exact ⟨by simpa [WritesRegister] using hregs, hpc, fun a => by simp⟩

/-- A step either takes an exception in user mode, or executes the instruction it fetched, the choice of the boundary
spent (rule R13). -/
theorem step_eq_exception_or_exec {s t : State} (h : step s = .next t) :
    (s.supervisor = false ∧ ∃ k, t = takeException k (passBoundary s)) ∨
    ∃ w i, FetchesWord s w ∧ decode w = .ok i ∧ exec i (passBoundary s) = .next t := by
  obtain ⟨source, -, huser, rfl⟩ | ⟨-, w, hw, ⟨i, hdecode, hexec⟩ | ⟨e, -, huser, rfl⟩⟩ := step_eq_next h
  · exact .inl ⟨huser, _, rfl⟩
  · exact .inr ⟨w, i, hw, hdecode, hexec⟩
  · exact .inl ⟨huser, _, rfl⟩

end Sys2Proof.Machine
end

section
/-! SUPPORT. The decoder read backwards: a word that decodes is the word of its instruction. -/

namespace Sys2Proof

/-- A With Literal word is composed of its fields and the opcode the decoder matched. -/
theorem composeWithLiteral_of_opcode {w : Word} {op : BitVec 6} (h : (opcodeField w).toNat = op.toNat) :
    composeWithLiteral op (withLiteralFields w) = w := by
  rw [← BitVec.eq_of_toNat_eq h, composeWithLiteral_fields]

/-- A Without Literal word is composed of its fields and the opcode the decoder matched. -/
theorem composeWithoutLiteral_of_opcode {w : Word} {op : BitVec 6} (h : (opcodeField w).toNat = op.toNat) :
    composeWithoutLiteral op (withoutLiteralFields w) = w := by
  rw [← BitVec.eq_of_toNat_eq h, composeWithoutLiteral_fields]

/-- A word is its opcode and the 26 bits below it (rule R88). -/
theorem opcodeField_append_low (w : Word) : (opcodeField w ++ w.extractLsb' 0 26 : BitVec (6 + 26)) = w := by
  apply BitVec.eq_of_getLsbD_eq
  intro i hi
  simp only [opcodeField, BitVec.getLsbD_append, BitVec.getLsbD_extractLsb']
  by_cases h : i < 26
  · simp [h]
  · have : i - 26 < 6 ∧ 26 + (i - 26) = i := by omega
    simp [h, this]

/-- No bit of a word is lost in its instruction (rules R82 to R84): each arm of the opcode map keeps the opcode, which
it matched, and all fields below it. The arms 0x20 to 0x2E are those without a literal. -/
theorem encode_of_decode {w : Word} {i : Instr} (h : decode w = .ok i) : encode i = w := by
  unfold decode at h
  split at h
  case h_1 _ hop =>
    cases h
    have hzero : opcodeField w = 0x00#6 := BitVec.eq_of_toNat_eq hop
    calc encode (.priv (w.extractLsb' 0 26))
        = (0x00#6 ++ w.extractLsb' 0 26 : BitVec (6 + 26)) := rfl
      _ = (opcodeField w ++ w.extractLsb' 0 26 : BitVec (6 + 26)) := by rw [hzero]
      _ = w := opcodeField_append_low w
  case h_34 => cases h
  case h_8 _ hop | h_9 _ hop | h_10 _ hop | h_11 _ hop | h_12 _ hop | h_13 _ hop | h_14 _ hop | h_15 _ hop |
      h_16 _ hop | h_17 _ hop | h_18 _ hop | h_19 _ hop | h_20 _ hop =>
    cases h
    exact composeWithoutLiteral_of_opcode hop
  all_goals
    cases h
    exact composeWithLiteral_of_opcode (by assumption)

@[simp] theorem rcField_composeWithoutLiteral (op : BitVec 6) (o : WithoutLiteral) :
    rcField (composeWithoutLiteral op o) = o.rc :=
  congrArg WithoutLiteral.rc (withoutLiteralFields_compose op o)

@[simp] theorem rcField_composeWithLiteral (op : BitVec 6) (o : WithLiteral) :
    rcField (composeWithLiteral op o) = o.rc :=
  congrArg WithLiteral.rc (withLiteralFields_compose op o)

@[simp] theorem raField_composeWithLiteral (op : BitVec 6) (o : WithLiteral) :
    raField (composeWithLiteral op o) = o.ra :=
  congrArg WithLiteral.ra (withLiteralFields_compose op o)

/-- The opcode of a word, as arithmetic (rule R82). -/
theorem toNat_opcodeField (w : Word) : (opcodeField w).toNat = w.toNat / 2 ^ 26 := by
  have := w.isLt
  simp only [opcodeField, BitVec.extractLsb'_toNat, Nat.shiftRight_eq_div_pow]
  omega

/-- A word that decodes to JMP holds its opcode and its Ra field (rules R82, R83). -/
theorem fields_of_decode_jmp {w : Word} {o : WithLiteral} (h : decode w = .ok (.jmp o)) :
    w.toNat / 2 ^ 26 = 0x1B ∧ raField w = o.ra := by
  rw [← toNat_opcodeField, ← encode_of_decode h]
  simp [encode, Instr.opcode]

end Sys2Proof
end
section
/-! SUPPORT. An instruction word with another number in its Rc field (rules R80 to R82). -/

namespace Sys2Proof

/-- The instruction with `rc` in its Rc field; opcode 0x00 has no such field. -/
def Instr.withRc (rc : RegNum) : Instr → Instr
  | .add o => .add { o with rc }
  | .addc o => .addc { o with rc }
  | .and o => .and { o with rc }
  | .andc o => .andc { o with rc }
  | .beq o => .beq { o with rc }
  | .bne o => .bne { o with rc }
  | .cmpeq o => .cmpeq { o with rc }
  | .cmpeqc o => .cmpeqc { o with rc }
  | .cmple o => .cmple { o with rc }
  | .cmplec o => .cmplec { o with rc }
  | .cmplt o => .cmplt { o with rc }
  | .cmpltc o => .cmpltc { o with rc }
  | .div o => .div { o with rc }
  | .divc o => .divc { o with rc }
  | .jmp o => .jmp { o with rc }
  | .ld o => .ld { o with rc }
  | .ldr o => .ldr { o with rc }
  | .mul o => .mul { o with rc }
  | .mulc o => .mulc { o with rc }
  | .or o => .or { o with rc }
  | .orc o => .orc { o with rc }
  | .shl o => .shl { o with rc }
  | .shlc o => .shlc { o with rc }
  | .shr o => .shr { o with rc }
  | .shrc o => .shrc { o with rc }
  | .sra o => .sra { o with rc }
  | .srac o => .srac { o with rc }
  | .sub o => .sub { o with rc }
  | .subc o => .subc { o with rc }
  | .st o => .st { o with rc }
  | .xor o => .xor { o with rc }
  | .xorc o => .xorc { o with rc }
  | .priv b => .priv b

/-- An instruction has the number in its Rc field that its word has there. -/
theorem Instr.withRc_rcField_encode (i : Instr) : i.withRc (rcField (encode i)) = i := by
  cases i <;> simp [Instr.withRc, encode]

@[simp] theorem opcodeField_or_rcMask (w : Word) : opcodeField (w ||| 0x03E00000#32) = opcodeField w := by
  simp [opcodeField, BitVec.extractLsb'_or]

@[simp] theorem rcField_or_rcMask (w : Word) : rcField (w ||| 0x03E00000#32) = 31#5 := by
  rw [rcField, BitVec.extractLsb'_or]
  exact BitVec.or_allOnes

@[simp] theorem withLiteralFields_or_rcMask (w : Word) :
    withLiteralFields (w ||| 0x03E00000#32) = { withLiteralFields w with rc := 31#5 } := by
  simp only [withLiteralFields, rcField_or_rcMask]
  simp [raField, litField, BitVec.extractLsb'_or]

@[simp] theorem withoutLiteralFields_or_rcMask (w : Word) :
    withoutLiteralFields (w ||| 0x03E00000#32) = { withoutLiteralFields w with rc := 31#5 } := by
  simp only [withoutLiteralFields, rcField_or_rcMask]
  simp [raField, rbField, BitVec.extractLsb'_or]

/-- Bits 25:21 of a word set to 31 give the instruction with register 31 in its Rc field (rules R82, R84). -/
theorem decode_or_rcMask {w : Word} {i : Instr} (h : decode w = .ok i) (hi : i.opcode ≠ 0x00#6) :
    decode (w ||| 0x03E00000#32) = .ok (i.withRc 31#5) := by
  unfold decode at h ⊢
  rw [opcodeField_or_rcMask, withLiteralFields_or_rcMask, withoutLiteralFields_or_rcMask]
  split at h
  case h_1 => cases h; exact absurd rfl hi
  case h_34 => cases h
  all_goals
    cases h
    rfl

end Sys2Proof
end

section
/-! SUPPORT. Instructions with a destination: what they compute, and the one place where the Rc field is used. -/

namespace Sys2Proof.Machine

theorem andThen_assoc {α β γ : Type} (x : Answer α) (f : α → Answer β) (g : β → Answer γ) :
    andThen (andThen x f) g = andThen x fun a => andThen (f a) g := by
  cases x <;> rfl

/-- The end of an instruction with a destination: the value to `x[rc]`, then the pc. -/
def writeAndGo (rc : RegNum) (s : State) (p : Word × Word) : Answer State :=
  .next ((s.writeReg rc p.1).setPc p.2)

/-- A result goes to `x[rc]` and the pc to the next instruction (rule R27). -/
theorem writeResult_eq_writeAndGo (rc : RegNum) (v : Word) (s : State) :
    writeResult rc v s = writeAndGo rc s (v, pcInc s.pc) := by
  simp [writeResult, writeAndGo, State.advance]

/-- The value is in `x[rc]`, and no other register has changed (rule R28). -/
theorem writesRegister_of_writeAndGo {rc : RegNum} {s t : State} {p : Word × Word} (h : writeAndGo rc s p = .next t) :
    WritesRegister s t rc p.1 := by
  cases h
  exact fun r => by rw [State.readReg_setPc, State.readReg_writeReg]

/-- A register that is not the written one reads as before (rule R28). -/
theorem WritesRegister.readReg_of_ne {rc r : RegNum} {s t : State} {v : Word} (h : WritesRegister s t rc v)
    (hr : r ≠ rc) : t.readReg r = s.readReg r := by
  rw [h r, if_neg hr]
  split
  · rename_i h31; rw [State.readReg_eq_zero s h31]
  · rfl

/-- But for its registers, the state after such an end is the one with register 31 as destination (rule R21). -/
theorem writeAndGo_31 (rc : RegNum) (s : State) (p : Word × Word) :
    writeAndGo 31#5 s p = andThen (writeAndGo rc s p) fun t => .next { t with regs := s.regs } := by
  simp [writeAndGo, State.setPc]

/-- The instruction does not read the register it links to: only BEQ and BNE can, where Ra and Rc name the same register
other than 31 (rule R175). -/
def TestsNoOwnLink (i : Instr) (rc : RegNum) : Prop :=
  i.opcode ∈ [0x1D#6, 0x1E#6] → raField (encode i) ≠ rc ∨ raField (encode i) = 31#5

/-- With any number in its Rc field the instruction computes a value and a pc, or stops, and ends by writing the value
to the register of that number; what it computes is the same for all numbers but that of a branch's own link. -/
def HasDestination (i : Instr) (s : State) : Prop :=
  ∃ x : RegNum → Answer (Word × Word), ∀ rc,
    exec (i.withRc rc) s = andThen (x rc) (writeAndGo rc s) ∧ (TestsNoOwnLink i rc → x rc = x 31#5)

/-- What writes a result that does not depend on Rc has a destination. -/
theorem hasDestination_of_writeResult {i : Instr} {s : State} (v : Answer Word)
    (h : ∀ rc, exec (i.withRc rc) s = andThen v fun a => writeResult rc a s) : HasDestination i s := by
  refine ⟨fun _ => andThen v fun a => .next (a, pcInc s.pc), fun rc => ⟨?_, fun _ => rfl⟩⟩
  simp only [h rc, andThen_assoc, andThen_next, writeResult_eq_writeAndGo]

/-- So has what only computes. -/
theorem hasDestination_of_value {i : Instr} {s : State} {v : RegNum → Word}
    (h : ∀ rc, exec (i.withRc rc) s = writeResult rc (v rc) s) (hv : ∀ rc, v rc = v 31#5) : HasDestination i s :=
  hasDestination_of_writeResult (.next (v 31#5)) fun rc => by rw [h rc, hv rc, andThen_next]

/-- A branch tests the same value for every Rc but its own Ra (rules R170, R171, R175). -/
theorem testedValue_of_ne {s : State} {o : WithLiteral} {npc : Word} (h : o.ra ≠ o.rc ∨ o.ra = 31#5) :
    testedValue s o npc = s.readReg o.ra := by
  rw [testedValue, if_neg]
  rintro ⟨heq, h31⟩
  exact h.elim (· heq) h31

/-- BEQ and BNE have a destination, the link (rule R173). -/
theorem hasDestination_of_branch {i : Instr} {s : State} (taken : Word → Bool) (o : WithLiteral)
    (hi : i.opcode ∈ [0x1D#6, 0x1E#6]) (hra : raField (encode i) = o.ra)
    (h : ∀ rc, exec (i.withRc rc) s = branch taken { o with rc } s) : HasDestination i s := by
  refine ⟨fun rc => .next (pcInc s.pc, if taken (testedValue s { o with rc } (pcInc s.pc)) = true then
    pcTarget (pcInc s.pc) (longwordOffset o.lit) else pcInc s.pc), fun rc => ⟨by rw [h rc]; rfl, fun hown => ?_⟩⟩
  have hne : o.ra ≠ rc ∨ o.ra = 31#5 := hra ▸ hown hi
  beta_reduce
  rw [testedValue_of_ne hne, testedValue_of_ne (o := { o with rc := 31#5 }) (ne_or_eq _ _)]

/-- Every instruction but ST and opcode 0x00 has a destination (rules R28, R36). -/
theorem hasDestination {i : Instr} (s : State) (hi : i.opcode ∉ [0x19#6, 0x00#6]) : HasDestination i s := by
  cases i with
  | st o => exact absurd hi (by simp [Instr.opcode])
  | priv b => exact absurd hi (by simp [Instr.opcode])
  | beq o => exact hasDestination_of_branch zeroTest o (by simp [Instr.opcode]) (by simp [encode]) fun _ => rfl
  | bne o =>
    exact hasDestination_of_branch (fun v => !zeroTest v) o (by simp [Instr.opcode]) (by simp [encode]) fun _ => rfl
  | jmp o => exact ⟨fun _ => .next (pcInc s.pc, jumpPc s.pc (s.readReg o.ra)), fun rc => ⟨rfl, fun _ => rfl⟩⟩
  | ld o =>
    refine hasDestination_of_writeResult (andThen (dataAddress (baseDisplacement s o)) (memRead s.mem)) fun rc => ?_
    rw [andThen_assoc]
    rfl
  | ldr o => exact hasDestination_of_writeResult (memRead s.mem (ldrAddress (pcInc s.pc) o.lit)) fun _ => rfl
  | add o | addc o | and o | andc o | cmpeq o | cmpeqc o | cmple o | cmplec o | cmplt o | cmpltc o
  | div o | divc o | mul o | mulc o | or o | orc o | shl o | shlc o | shr o | shrc o | sra o | srac o
  | sub o | subc o | xor o | xorc o => exact hasDestination_of_value (fun _ => rfl) fun _ => rfl

/-- The store's next state: one longword replaced, the pc advanced (rule R162). -/
theorem exec_st_eq_next {o : WithLiteral} {s t : State} (h : exec (.st o) s = .next t) :
    ∃ a : Word, t = (s.setMem (Memory.writeWord s.mem a.toNat (s.readReg o.rc))).advance := by
  obtain ⟨a, -, h⟩ := andThen_eq_next.1 h
  obtain ⟨u, hu, h⟩ := andThen_eq_next.1 h
  obtain ⟨-, rfl⟩ := memWrite_eq_next.1 hu
  cases h
  exact ⟨a, rfl⟩

/-- Opcode 0x00 gives a next state only as an exception (rule R180). -/
theorem exec_priv_eq_next {b : BitVec 26} {s t : State} (h : exec (.priv b) s = .next t) :
    t = takeException .illegalInstruction s := by
  change execPriv b s = .next t at h
  unfold execPriv at h
  split at h
  · cases h
  · exact (raise_eq_next.1 h).2

/-- The opcode 0x19 is ST's alone (rule R83). -/
theorem eq_st_of_opcode {i : Instr} (h : i.opcode = 0x19#6) : ∃ o, i = .st o := by
  cases i with
  | st o => exact ⟨o, rfl⟩
  | _ => simp [Instr.opcode] at h

/-- The opcode 0x00 is the privileged one alone (rule R88). -/
theorem eq_priv_of_opcode {i : Instr} (h : i.opcode = 0x00#6) : ∃ b, i = .priv b := by
  cases i with
  | priv b => exact ⟨b, rfl⟩
  | _ => simp [Instr.opcode] at h

end Sys2Proof.Machine
end

section
/-! PROOFS. The obligations about the state (10_state.md). -/

namespace Sys2Proof.Machine

/-- Settles O32: an instruction that enters supervisor mode is opcode 0x00, since JMP only keeps or clears the
Supervisor bit; so every entry is an exception. -/
theorem supervisorModeEnteredOnlyByException : Obligations.SupervisorModeEnteredOnlyByException := by
  intro s t hstep huser hsup
  obtain ⟨-, k, rfl⟩ | ⟨w, i, -, -, hexec⟩ := step_eq_exception_or_exec hstep
  · exact ⟨k, takeException_passBoundary k s⟩
  · obtain hkeep | ⟨o, -, hjmp⟩ | ⟨-, rfl⟩ := exec_supervisor hexec
    · rw [hkeep, passBoundary_supervisor, huser] at hsup
      contradiction
    · obtain ⟨hs, -⟩ := hjmp.1 hsup
      rw [passBoundary_supervisor, huser] at hs
      contradiction
    · exact ⟨.illegalInstruction, takeException_passBoundary _ s⟩

/-- Settles O33: in supervisor mode no exception is taken, and of the instructions only JMP leaves the mode, where bit
31 of its target is clear. -/
theorem supervisorModeLeftOnlyByJmp : Obligations.SupervisorModeLeftOnlyByJmp := by
  intro s t hstep hsup huser
  obtain ⟨hs, -⟩ | ⟨w, i, hw, hdecode, hexec⟩ := step_eq_exception_or_exec hstep
  · rw [hs] at hsup
    contradiction
  · have hsup' : (passBoundary s).supervisor = true := by rw [passBoundary_supervisor, hsup]
    obtain hkeep | ⟨o, rfl, hjmp⟩ | ⟨hs, -⟩ := exec_supervisor hexec
    · rw [hkeep, hsup'] at huser
      contradiction
    · obtain ⟨hop, hra⟩ := fields_of_decode_jmp hdecode
      refine ⟨w, hw, hop, Nat.lt_of_not_le fun hbit => ?_⟩
      rw [hra, ← readReg_passBoundary] at hbit
      rw [hjmp.2 ⟨hsup', hbit⟩] at huser
      contradiction
    · rw [hs] at hsup'
      contradiction

/-- Settles O35: exception entry goes to a multiple of 4 and keeps memory, and every instruction keeps both parts. -/
theorem stepKeepsInvariant : Obligations.StepKeepsInvariant := by
  rintro s t ⟨hpc, hwf⟩ hstep
  obtain ⟨-, k, rfl⟩ | ⟨w, i, -, -, hexec⟩ := step_eq_exception_or_exec hstep
  · exact ⟨pcAligned_vectorPc k, by simpa using hwf⟩
  · exact ⟨exec_pcAligned hexec (by simpa [PcAligned] using hpc), exec_wf hexec (by simpa using hwf)⟩

/-- Settles O43: exception entry keeps memory, and of the instructions only ST does not; the longword it replaces is
the one that holds its effective address. -/
theorem onlyStoreChangesMemory : Obligations.OnlyStoreChangesMemory := by
  intro s t b hstep hchanged
  obtain ⟨-, k, rfl⟩ | ⟨w, i, hw, hdecode, hexec⟩ := step_eq_exception_or_exec hstep
  · simp at hchanged
  · obtain hmem | ⟨o, a, rfl, ha, -, hmem⟩ := exec_mem hexec
    · simp [hmem] at hchanged
    · have hbase : baseDisplacement (passBoundary s) o = baseDisplacement s o := by simp [baseDisplacement]
      rw [hbase] at ha
      refine ⟨w, o, hw, hdecode, ?_⟩
      rw [← dataAddress_toNat ha]
      by_contra hout
      rw [hmem, Memory.readByte_writeWord, if_neg hout, passBoundary_mem] at hchanged
      exact hchanged rfl

/-- Settles O40: the next pc is the updated PC, which is this as arithmetic. -/
theorem sequentialAdvanceWrapsIn31Bits : Obligations.SequentialAdvanceWrapsIn31Bits := by
  intro i s t hi hexec
  rw [exec_pc_of_sequential hexec hi, toNat_pcInc]

/-- Settles O41: ST writes memory alone, exception entry XP alone, and every other instruction ends by writing the
register its Rc field names. -/
theorem onlyTheNamedRegisterChanges : Obligations.OnlyTheNamedRegisterChanges := by
  intro i s t hexec r
  have hst : i.opcode = 0x19#6 → t.readReg r = s.readReg r := by
    intro hi
    obtain ⟨o, rfl⟩ := eq_st_of_opcode hi
    obtain ⟨a, rfl⟩ := exec_st_eq_next hexec
    simp
  refine ⟨fun hi hr => ?_, hst, fun hi hr => ?_⟩
  · obtain ⟨b, rfl⟩ := eq_priv_of_opcode hi
    rw [exec_priv_eq_next hexec]
    exact (takeException_entersHandler _ s).1.readReg_of_ne hr
  · by_cases h19 : i.opcode = 0x19#6
    · exact hst h19
    · obtain ⟨x, hx⟩ := hasDestination (i := i) s (by simp [hi, h19])
      obtain ⟨hexec', -⟩ := hx (rcField (encode i))
      rw [Instr.withRc_rcField_encode, hexec] at hexec'
      obtain ⟨p, -, hp⟩ := andThen_eq_next.1 hexec'.symm
      exact (writesRegister_of_writeAndGo hp).readReg_of_ne hr

/-- Settles O42: the word decodes to the same instruction with 31 as its destination, which computes the same and ends
by writing to no register. -/
theorem register31IsABitBucket : Obligations.Register31IsABitBucket := by
  refine ⟨State.readReg_31, fun w i i31 s hdecode hdecode31 hi hbranch => ?_⟩
  obtain rfl : encode i = w := encode_of_decode hdecode
  have hpriv : i.opcode ≠ 0x00#6 := by rintro h; simp [h] at hi
  obtain rfl : i31 = i.withRc 31#5 := by
    rw [decode_or_rcMask hdecode hpriv] at hdecode31
    exact (Except.ok.inj hdecode31).symm
  obtain ⟨x, hx⟩ := hasDestination s hi
  obtain ⟨hexec, hsame⟩ := hx (rcField (encode i))
  obtain ⟨hexec31, -⟩ := hx 31#5
  rw [Instr.withRc_rcField_encode, hsame hbranch] at hexec
  rw [hexec, hexec31, andThen_assoc]
  congr 1
  funext p
  exact writeAndGo_31 _ s p

/-- Settles O18: at a multiple of 4 the read is made, and it faults. -/
theorem unwrittenLoadFaults : Obligations.UnwrittenLoadFaults := by
  rintro o s haligned ⟨i, hi, hbyte⟩
  have hlow := (lowBits_eq_zero_iff_mod_four _).2 haligned
  have hread : memRead s.mem (baseDisplacement s o) = .fault (.unwrittenMemory (baseDisplacement s o).toNat) :=
    memRead_of_unwritten (plainMemory_of_aligned hlow) (Memory.readWord_eq_none hi hbyte)
  change execLd o s = _
  rw [execLd, dataAddress_of_aligned hlow, andThen_next, hread, andThen_fault]

/-- Settles O36: a closed fact, the pc of reset is 0x80000000 and its memory is empty. -/
theorem resetMeetsInvariant : Obligations.ResetMeetsInvariant := by
  unfold Obligations.ResetMeetsInvariant
  decide

/-- Settles O37: the pc of reset has the Supervisor bit, and supervisor mode takes no interrupt. -/
theorem resetStartsAtZeroInSupervisorMode : Obligations.ResetStartsAtZeroInSupervisorMode := by
  have hsup : State.reset.supervisor = true := by decide
  refine ⟨rfl, hsup, State.readReg_31 _, fun l => ?_⟩
  exact interruptTaken_supervisor (by rw [State.supervisor_setInterrupts, hsup])

end Sys2Proof.Machine
end

section
/-! SUPPORT. LD and ST once the address they access is known (rules R54, R160, R162), and the bytes of a word as
arithmetic (rule R51). -/

namespace Sys2Proof.Machine

/-- LD and ST access multiples of 4 alone, and each of these is plain memory (rules R54, R58; assumption log 6). -/
theorem plainMemory_of_dataAddress {ea a : Word} (h : dataAddress ea = .next a) : plainMemory a = true :=
  plainMemory_of_aligned (dataAddress_eq_next h).1

theorem dataAddress_of_mod_four {ea : Word} (h : ea.toNat % 4 = 0) : dataAddress ea = .next ea :=
  dataAddress_of_aligned ((lowBits_eq_zero_iff_mod_four ea).2 h)

/-- An access to an address that is no multiple of 4 has no meaning where MISALIGNED_DATA is `refuse` (rule R54 (d)). -/
theorem dataAddress_of_refuse (hconfig : Config.misalignedData = .refuse) {ea : Word} (h : ea.toNat % 4 ≠ 0) :
    dataAddress ea = .refused (.misalignedData ea) := by
  rw [dataAddress, if_neg (mt (lowBits_eq_zero_iff_mod_four ea).1 h), hconfig]

/-- An access to an address that is no multiple of 4 goes to the longword that holds it where MISALIGNED_DATA is `mask`
(rule R54 (d)). -/
theorem dataAddress_of_mask (hconfig : Config.misalignedData = .mask) {ea a : Word} (h : ea.toNat % 4 ≠ 0)
    (ha : a.toNat = ea.toNat / 4 * 4) : dataAddress ea = .next a := by
  obtain rfl : a = ea &&& 0xFFFFFFFC#32 := BitVec.eq_of_toNat_eq (by rw [ha, toNat_and_mask])
  rw [dataAddress, if_neg (mt (lowBits_eq_zero_iff_mod_four ea).1 h), hconfig]

/-- LD is refused where its address is (rule R54). -/
theorem exec_ld_of_refused {o : WithLiteral} {s : State} {r : Refusal}
    (h : dataAddress (baseDisplacement s o) = .refused r) : exec (.ld o) s = .refused r := by
  change execLd o s = _
  rw [execLd, h, andThen_refused]

/-- ST is refused where its address is (rule R54). -/
theorem exec_st_of_refused {o : WithLiteral} {s : State} {r : Refusal}
    (h : dataAddress (baseDisplacement s o) = .refused r) : exec (.st o) s = .refused r := by
  change execSt o s = _
  rw [execSt, h, andThen_refused]

/-- LD of a word with a value has that value as its result (rule R160). -/
theorem exec_ld_of_dataAddress {o : WithLiteral} {s : State} {a w : Word}
    (ha : dataAddress (baseDisplacement s o) = .next a) (hw : Memory.readWord s.mem a.toNat = some w) :
    exec (.ld o) s = writeResult o.rc w s := by
  change execLd o s = _
  rw [execLd, ha, andThen_next, memRead_eq_next.2 ⟨plainMemory_of_dataAddress ha, hw⟩, andThen_next]

/-- The state after a store of `x[o.rc]` in the longword at `a` (rule R162). -/
def State.stored (s : State) (o : WithLiteral) (a : Word) : State :=
  (s.setMem (Memory.writeWord s.mem a.toNat (s.readReg o.rc))).advance

@[simp] theorem State.stored_pc (s : State) (o : WithLiteral) (a : Word) : (s.stored o a).pc = pcInc s.pc := rfl
@[simp] theorem State.stored_mem (s : State) (o : WithLiteral) (a : Word) :
    (s.stored o a).mem = Memory.writeWord s.mem a.toNat (s.readReg o.rc) := rfl

/-- The word stored reads back (rule R60 (a)). -/
theorem State.readWord_stored (s : State) (o : WithLiteral) (a : Word) :
    Memory.readWord (s.stored o a).mem a.toNat = some (s.readReg o.rc) := by
  rw [State.stored_mem, Memory.readWord_writeWord]

/-- ST completes wherever it accesses memory: nothing there is read-only (rules R58, R162; assumption log 6). -/
theorem exec_st_of_dataAddress {o : WithLiteral} {s : State} {a : Word}
    (ha : dataAddress (baseDisplacement s o) = .next a) : exec (.st o) s = .next (s.stored o a) := by
  change execSt o s = _
  rw [execSt, ha, andThen_next, memWrite_eq_next.2 ⟨plainMemory_of_dataAddress ha, rfl⟩, andThen_next, State.stored]

/-- The whole effect of ST: one longword, and the pc (rules R28, R162). -/
theorem State.stored_effect (s : State) (o : WithLiteral) (a : Word) :
    StoresWord s (s.stored o a) a (s.readReg o.rc) ∧ KeepsRegisters s (s.stored o a) ∧
      (s.stored o a).pc = pcInc s.pc ∧ (s.stored o a).interrupts = s.interrupts :=
  ⟨storesWord_setMem s a _, fun _ => rfl, rfl, rfl⟩

/-- A store at a multiple of 4 has that longword as its effect (rules R54, R162). -/
theorem eq_stored_of_exec_st {o : WithLiteral} {s t : State} (h : exec (.st o) s = .next t)
    (haligned : (baseDisplacement s o).toNat % 4 = 0) : t = s.stored o (baseDisplacement s o) := by
  rw [exec_st_of_dataAddress (dataAddress_of_mod_four haligned)] at h
  exact (Host.Outcome.next.inj h).symm

/-- A pc that is a multiple of 4 fetches from one (rules R25, R33). -/
theorem fetchAddress_mod_four {p : Word} (h : p.extractLsb' 0 2 = 0#2) : (fetchAddress p).toNat % 4 = 0 := by
  rw [fetchAddress_toNat]
  exact (lowBits_eq_zero_iff p).1 h

/-- Juxtaposed bit strings, as arithmetic. -/
theorem toNat_append_eq_mul_add {m n : Nat} (x : BitVec m) (y : BitVec n) :
    (x ++ y).toNat = x.toNat * 2 ^ n + y.toNat := by
  rw [BitVec.toNat_append, ← Nat.shiftLeft_add_eq_or_of_lt y.isLt, Nat.shiftLeft_eq]

/-- Byte `i` of a word is bits `8i+7 : 8i` (rule R51). -/
theorem toNat_leByte (w : Word) (i : Nat) : (leByte w i).toNat = w.toNat / 2 ^ (8 * i) % 2 ^ 8 := by
  rw [leByte, BitVec.extractLsb'_toNat, Nat.shiftRight_eq_div_pow]

/-- The byte at the lowest address is the least significant of a word (rule R51). -/
theorem toNat_leWord (b0 b1 b2 b3 : Byte) :
    (leWord b0 b1 b2 b3).toNat = b0.toNat + 2 ^ 8 * b1.toNat + 2 ^ 16 * b2.toNat + 2 ^ 24 * b3.toNat := by
  simp only [leWord, toNat_append_eq_mul_add]
  omega

end Sys2Proof.Machine
end

section
/-! PROOFS. The obligations about memory (20_memory.md). -/

namespace Sys2Proof.Machine

/-- Settles O17: LD and ST share `dataAddress`, and its one choice is made before all operands and states. -/
theorem misalignedAccessIsRefusedOrMasked : Obligations.MisalignedAccessIsRefusedOrMasked := by
  cases hconfig : Config.misalignedData with
  | refuse =>
    refine .inl fun o s hmis => ?_
    have haddr := dataAddress_of_refuse hconfig hmis
    exact ⟨exec_ld_of_refused haddr, exec_st_of_refused haddr⟩
  | mask =>
    refine .inr fun o s a hmis ha => ?_
    have haddr := dataAddress_of_mask hconfig hmis ha
    refine ⟨fun w hw => ?_, s.stored o a, exec_st_of_dataAddress haddr, s.stored_effect o a⟩
    rw [exec_ld_of_dataAddress haddr hw]
    exact writeResult_onlyResult o.rc w s

/-- Settles O45: the store replaces the longword at its address, so LD and a second ST there find it, and a word apart
from it reads as before. -/
theorem loadsSeeTheLastStore : Obligations.LoadsSeeTheLastStore := by
  intro o o' s t hst haligned
  obtain rfl := eq_stored_of_exec_st hst haligned
  refine ⟨fun hsame => ?_, fun a hapart => ?_⟩
  · have haddr : dataAddress (baseDisplacement (s.stored o (baseDisplacement s o)) o') =
        .next (baseDisplacement s o) := by
      rw [hsame, dataAddress_of_mod_four haligned]
    refine ⟨?_, _, exec_st_of_dataAddress haddr, State.readWord_stored _ o' _⟩
    rw [exec_ld_of_dataAddress haddr (s.readWord_stored o _)]
    exact writeResult_onlyResult o'.rc (s.readReg o.rc) _
  · rw [State.stored_mem, Memory.readWord_writeWord_of_apart _ _ hapart]

/-- Settles O46: the address stored at is the one fetched from after the store, so the word fetched is the one stored,
and the step runs its instruction (`stepRunsDecodedInstruction`). -/
theorem storedWordIsFetchedNext : Obligations.StoredWordIsFetchedNext := by
  intro o s t i hst haddr hpc hnone hdecode
  have haligned : (baseDisplacement s o).toNat % 4 = 0 := by
    rw [haddr]
    exact fetchAddress_mod_four (pcAligned_pcInc hpc)
  obtain rfl := eq_stored_of_exec_st hst haligned
  have hfetch : FetchesWord (s.stored o (baseDisplacement s o)) (s.readReg o.rc) := by
    rw [FetchesWord, State.stored_pc, ← haddr]
    exact s.readWord_stored o _
  exact stepRunsDecodedInstruction _ _ i hnone hfetch hdecode

/-- Settles O44: bytes are taken out and put together at multiples of 8 bits, the lowest address lowest. -/
theorem wordsAreLittleEndian : Obligations.WordsAreLittleEndian :=
  ⟨fun w i _ => toNat_leByte w i, toNat_leWord⟩

end Sys2Proof.Machine
end

section
/-! SUPPORT. The decoder read forwards: an instruction is read back from its word (rules R82 to R84), and the words of
rule R82's sums are composed words. -/

namespace Sys2Proof

/-- The word of an instruction carries its opcode in bits 31:26 (rules R82, R83). -/
@[simp] theorem opcodeField_encode (i : Instr) : opcodeField (encode i) = i.opcode := by
  cases i <;> simp [encode, Instr.opcode]

/-- The word of a privileged instruction ends in its 26 bits (rule R88). -/
theorem low_encode_priv (b : BitVec 26) : (encode (.priv b)).extractLsb' 0 26 = b :=
  BitVec.extractLsb'_append_eq_right

/-- The opcode of a composed word selects the arm of its instruction, and the fields read there are the operands it was
composed of. -/
theorem decode_encode (i : Instr) : decode (encode i) = .ok i := by
  cases i with
  | priv b => simp [decode, Instr.opcode, low_encode_priv]
  | _ o => simp [decode, encode, Instr.opcode]

theorem encode_injective : Function.Injective encode := by
  intro i j h
  have hdecode := congrArg decode h
  rwa [decode_encode, decode_encode, Except.ok.injEq] at hdecode

/-- The sum of rule R82 for a word without a literal: no two fields overlap. -/
theorem registerWord_eq_compose (op : BitVec 6) (rc ra rb : RegNum) :
    Certificates.registerWord op.toNat rc ra rb = composeWithoutLiteral op ⟨rc, ra, rb, 0#11⟩ := by
  apply BitVec.eq_of_toNat_eq
  have hlt := (composeWithoutLiteral op ⟨rc, ra, rb, 0#11⟩).isLt
  simp only [Certificates.registerWord, composeWithoutLiteral, Machine.toNat_append_eq_mul_add,
    BitVec.toNat_ofNat] at hlt ⊢
  omega

/-- The sum of rule R82 for a word with a literal: no two fields overlap. -/
theorem literalWord_eq_compose (op : BitVec 6) (rc ra : RegNum) (lit : Literal) :
    Certificates.literalWord op.toNat rc ra lit = composeWithLiteral op ⟨rc, ra, lit⟩ := by
  apply BitVec.eq_of_toNat_eq
  have hlt := (composeWithLiteral op ⟨rc, ra, lit⟩).isLt
  simp only [Certificates.literalWord, composeWithLiteral, Machine.toNat_append_eq_mul_add,
    BitVec.toNat_ofNat] at hlt ⊢
  omega

/-- A privileged word is the number that its low 26 bits are (rule R88). -/
theorem ofNat_eq_encode_priv (b : BitVec 26) : BitVec.ofNat 32 b.toNat = encode (.priv b) := by
  apply BitVec.eq_of_toNat_eq
  change _ = (0x00#6 ++ b).toNat
  have hlt := b.isLt
  rw [Machine.toNat_append_eq_mul_add, BitVec.toNat_ofNat, BitVec.toNat_ofNat]
  omega

theorem decode_registerWord {opcode : Nat} {i : Instr} {rc ra rb : RegNum} (hop : i.opcode.toNat = opcode)
    (h : encode i = composeWithoutLiteral i.opcode ⟨rc, ra, rb, 0#11⟩) :
    decode (Certificates.registerWord opcode rc ra rb) = .ok i := by
  rw [← hop, registerWord_eq_compose, ← h, decode_encode]

theorem decode_literalWord {opcode : Nat} {i : Instr} {rc ra : RegNum} {lit : Literal}
    (hop : i.opcode.toNat = opcode) (h : encode i = composeWithLiteral i.opcode ⟨rc, ra, lit⟩) :
    decode (Certificates.literalWord opcode rc ra lit) = .ok i := by
  rw [← hop, literalWord_eq_compose, ← h, decode_encode]

end Sys2Proof
end

section
/-! SUPPORT. The bits that rule R89 calls unused or ignored: an instruction with these fields zero, its word, and its
meaning. -/

namespace Sys2Proof

/-- Words without a literal are and-ed field by field. -/
theorem composeWithoutLiteral_and (op op' : BitVec 6) (o o' : WithoutLiteral) :
    composeWithoutLiteral op o &&& composeWithoutLiteral op' o' =
      composeWithoutLiteral (op &&& op')
        ⟨o.rc &&& o'.rc, o.ra &&& o'.ra, o.rb &&& o'.rb, o.unused &&& o'.unused⟩ := by
  change (op ++ o.rc ++ o.ra ++ o.rb ++ o.unused &&& op' ++ o'.rc ++ o'.ra ++ o'.rb ++ o'.unused :
    BitVec (6 + 5 + 5 + 5 + 11)) = _
  simp only [BitVec.and_append, composeWithoutLiteral]

/-- Words with a literal are and-ed field by field. -/
theorem composeWithLiteral_and (op op' : BitVec 6) (o o' : WithLiteral) :
    composeWithLiteral op o &&& composeWithLiteral op' o' =
      composeWithLiteral (op &&& op') ⟨o.rc &&& o'.rc, o.ra &&& o'.ra, o.lit &&& o'.lit⟩ := by
  change (op ++ o.rc ++ o.ra ++ o.lit &&& op' ++ o'.rc ++ o'.ra ++ o'.lit : BitVec (6 + 5 + 5 + 16)) = _
  simp only [BitVec.and_append, composeWithLiteral]

/-- Bits 10:0 of a word without a literal are its unused field (rule R80). -/
theorem composeWithoutLiteral_clear_unused (op : BitVec 6) (o : WithoutLiteral) :
    composeWithoutLiteral op { o with unused := 0#11 } = composeWithoutLiteral op o &&& ~~~0x000007FF#32 := by
  have hmask : ~~~0x000007FF#32 = composeWithoutLiteral (.allOnes 6) ⟨.allOnes 5, .allOnes 5, .allOnes 5, 0#11⟩ := rfl
  simp only [hmask, composeWithoutLiteral_and, BitVec.and_allOnes, BitVec.and_zero]

/-- Bits 15:0 of a word with a literal are that literal (rule R81). -/
theorem composeWithLiteral_clear_lit (op : BitVec 6) (o : WithLiteral) :
    composeWithLiteral op { o with lit := 0#16 } = composeWithLiteral op o &&& ~~~0x0000FFFF#32 := by
  have hmask : ~~~0x0000FFFF#32 = composeWithLiteral (.allOnes 6) ⟨.allOnes 5, .allOnes 5, 0#16⟩ := rfl
  simp only [hmask, composeWithLiteral_and, BitVec.and_allOnes, BitVec.and_zero]

/-- Bits 20:16 of a word with a literal are its Ra field (rule R81). -/
theorem composeWithLiteral_clear_ra (op : BitVec 6) (o : WithLiteral) :
    composeWithLiteral op { o with ra := 0#5 } = composeWithLiteral op o &&& ~~~0x001F0000#32 := by
  have hmask : ~~~0x001F0000#32 = composeWithLiteral (.allOnes 6) ⟨.allOnes 5, 0#5, .allOnes 16⟩ := rfl
  simp only [hmask, composeWithLiteral_and, BitVec.and_allOnes, BitVec.and_zero]

/-- The instruction with zero in the fields that take no part in its meaning (rule R89). -/
def Instr.cleared : Instr → Instr
  | .add o => .add { o with unused := 0#11 }
  | .and o => .and { o with unused := 0#11 }
  | .cmpeq o => .cmpeq { o with unused := 0#11 }
  | .cmple o => .cmple { o with unused := 0#11 }
  | .cmplt o => .cmplt { o with unused := 0#11 }
  | .div o => .div { o with unused := 0#11 }
  | .jmp o => .jmp { o with lit := 0#16 }
  | .ldr o => .ldr { o with ra := 0#5 }
  | .mul o => .mul { o with unused := 0#11 }
  | .or o => .or { o with unused := 0#11 }
  | .shl o => .shl { o with unused := 0#11 }
  | .shr o => .shr { o with unused := 0#11 }
  | .sra o => .sra { o with unused := 0#11 }
  | .sub o => .sub { o with unused := 0#11 }
  | .xor o => .xor { o with unused := 0#11 }
  | i => i

/-- A mask of no bits clears none. -/
theorem and_not_zero {n : Nat} (w : BitVec n) : w &&& ~~~0#n = w := by
  rw [BitVec.not_zero, BitVec.and_allOnes]

/-- The word of the cleared instruction: the bits of the opcode table's `should_be_zero` column are zero, the others
stay. -/
theorem encode_cleared (i : Instr) : encode i.cleared = encode i &&& ~~~i.shouldBeZero := by
  cases i with
  | jmp o => exact composeWithLiteral_clear_lit _ o
  | ldr o => exact composeWithLiteral_clear_ra _ o
  | add o | sub o | mul o | div o | cmpeq o | cmplt o | cmple o | and o | or o | xor o | shl o | shr o | sra o =>
    exact composeWithoutLiteral_clear_unused _ o
  | _ => exact (and_not_zero _).symm

/-- No meaning reads a field that is cleared (rule R89, D8; assumption log 13). -/
theorem exec_cleared (i : Instr) (s : Machine.State) : Machine.exec i.cleared s = Machine.exec i s := by
  cases i <;> rfl

theorem WithoutLiteral.wellFormed_iff (o : WithoutLiteral) : o.wellFormed = true ↔ { o with unused := 0#11 } = o := by
  rw [WithoutLiteral.wellFormed, beq_iff_eq]
  exact ⟨fun h => by rw [← h], fun h => (congrArg WithoutLiteral.unused h).symm⟩

/-- The strict check accepts the instructions that clearing leaves as they are. -/
theorem Instr.wellFormed_iff (i : Instr) : i.wellFormed = true ↔ i.cleared = i := by
  cases i with
  | jmp o =>
    simp only [wellFormed, cleared, beq_iff_eq, jmp.injEq]
    exact ⟨fun h => by rw [← h], fun h => (congrArg WithLiteral.lit h).symm⟩
  | ldr o =>
    simp only [wellFormed, cleared, beq_iff_eq, ldr.injEq]
    exact ⟨fun h => by rw [← h], fun h => (congrArg WithLiteral.ra h).symm⟩
  | add o | sub o | mul o | div o | cmpeq o | cmplt o | cmple o | and o | or o | xor o | shl o | shr o | sra o =>
    simp [wellFormed, cleared, WithoutLiteral.wellFormed_iff]
  | _ => exact iff_of_true rfl rfl

/-- The `should_be_zero` column of the opcode table as a function of the opcode: JMP, LDR, and the opcodes without a
literal, which are those from 0x20 to 0x2F. -/
def opcodeShouldBeZero (op : BitVec 6) : Word :=
  if op = 0x1B#6 then 0x0000FFFF#32
  else if op = 0x1F#6 then 0x001F0000#32
  else if 0x20#6 ≤ op ∧ op ≤ 0x2F#6 then 0x000007FF#32
  else 0#32

theorem Instr.shouldBeZero_eq (i : Instr) : i.shouldBeZero = opcodeShouldBeZero i.opcode := by
  cases i <;> simp [shouldBeZero, opcodeShouldBeZero, opcode]

/-- The opcode is not among the bits that should be zero. -/
theorem opcodeField_and_not_shouldBeZero (w : Word) (i : Instr) :
    opcodeField (w &&& ~~~i.shouldBeZero) = opcodeField w := by
  have hmask : (~~~i.shouldBeZero).extractLsb' 26 6 = BitVec.allOnes 6 := by
    rw [i.shouldBeZero_eq, opcodeShouldBeZero]
    split_ifs <;> decide
  rw [opcodeField, BitVec.extractLsb'_and, hmask, BitVec.and_allOnes, opcodeField]

/-- Bit strings that differ outside a mask nowhere agree there. -/
theorem and_eq_and_of_xor_and_eq_zero {n : Nat} {a b m : BitVec n} (h : (a ^^^ b) &&& m = 0#n) :
    a &&& m = b &&& m := by
  have hdistrib : (a &&& m) ^^^ (b &&& m) = (a ^^^ b) &&& m := by
    ext k hk
    simp [Bool.and_xor_distrib_right]
  rw [← BitVec.xor_eq_zero_iff, hdistrib, h]

/-- The bits of a mask are zero exactly where clearing them changes nothing. -/
theorem and_eq_zero_iff_and_not_eq {n : Nat} (a m : BitVec n) : a &&& m = 0#n ↔ a &&& ~~~m = a := by
  have hsplit : (a &&& ~~~m) ^^^ a = a &&& m := by
    ext k hk
    cases ha : a[k] <;> simp [ha]
  rw [← hsplit, BitVec.xor_eq_zero_iff]

/-- Words that agree outside the bits that should be zero are words of the same instruction but for the cleared
fields. -/
theorem cleared_eq_of_encode_and_eq {i j : Instr}
    (h : encode i &&& ~~~i.shouldBeZero = encode j &&& ~~~i.shouldBeZero) : i.cleared = j.cleared := by
  have hop : i.opcode = j.opcode := by
    have hfield := congrArg opcodeField h
    rwa [opcodeField_and_not_shouldBeZero, opcodeField_and_not_shouldBeZero, opcodeField_encode,
      opcodeField_encode] at hfield
  have hmask : i.shouldBeZero = j.shouldBeZero := by rw [i.shouldBeZero_eq, hop, j.shouldBeZero_eq]
  apply encode_injective
  rw [encode_cleared, encode_cleared, h, hmask]

end Sys2Proof
end

section
/-! SUPPORT. The assembler's literal for a label (rule R86), and the addresses that BEQ, BNE and LDR make of a literal
(rules R85, R161, R170), as arithmetic. -/

namespace Sys2Proof

/-- The labels that have a literal (rule R86, D24). -/
theorem exists_labelLiteral_iff (label current : Nat) : (∃ lit, labelLiteral label current = some lit) ↔
    ((label : Int) - current) % 4 = 0 ∧ (current : Int) - 131068 ≤ label ∧ (label : Int) ≤ current + 131072 := by
  have hrange : (-131068 ≤ (label : Int) - current ∧ (label : Int) - current ≤ 131072) ↔
      ((current : Int) - 131068 ≤ label ∧ (label : Int) ≤ current + 131072) := by omega
  rw [← hrange]
  simp [labelLiteral]

/-- A literal counts longwords from the updated PC to its label (rule R86). -/
theorem label_eq_of_labelLiteral {label current : Nat} {lit : Literal} (h : labelLiteral label current = some lit) :
    (label : Int) = current + 4 + 4 * lit.toInt := by
  simp only [labelLiteral, Option.ite_none_right_eq_some, Option.some.injEq] at h
  obtain ⟨⟨hmul, hlow, hhigh⟩, rfl⟩ := h
  rw [BitVec.toInt_ofInt_eq_self (by decide) (by omega) (by omega)]
  omega

namespace Machine

/-- The address part of a word is the word modulo 2^31 (rule R24). -/
theorem toNat_addrPart (p : Word) : (addrPart p).toNat = p.toNat % 2 ^ 31 := by
  simp [addrPart]

/-- The branch offset is four times the signed literal (rule R85 (b)). -/
theorem toNat_addrPart_longwordOffset (lit : Literal) :
    ((addrPart (longwordOffset lit)).toNat : Int) = 4 * lit.toInt % 2 ^ 31 := by
  have hlit : (literalOperand lit).toInt = lit.toInt := BitVec.toInt_signExtend_of_le (by decide)
  rw [toNat_addrPart, longwordOffset, BitVec.toNat_shiftLeft, Nat.shiftLeft_eq, ← hlit, BitVec.toInt_eq_toNat_cond]
  split <;> omega

/-- The target of BEQ and BNE, modulo 2^31 (rules R26, R170). -/
theorem toNat_addrPart_branchTarget (p : Word) (lit : Literal) :
    ((addrPart (pcTarget (pcInc p) (longwordOffset lit))).toNat : Int) =
      ((addrPart p).toNat + 4 + 4 * lit.toInt) % 2 ^ 31 := by
  have hfour : (4#31).toNat = 4 := rfl
  have hoffset := toNat_addrPart_longwordOffset lit
  rw [addrPart_pcTarget, addrPart_pcInc, BitVec.toNat_add, BitVec.toNat_add]
  omega

/-- The address sum of LDR, but at the last word of the space, where the updated PC wraps (rules R27, R161). -/
theorem ldrSum_pcInc {p : Word} (h : (addrPart p).toNat + 4 < 2 ^ 31) (lit : Literal) :
    ldrSum (pcInc p) lit = (addrPart p).toNat + 4 + 4 * lit.toInt := by
  have hfour : (4#31).toNat = 4 := rfl
  rw [ldrSum, addrPart_pcInc, BitVec.toNat_add]
  omega

/-- LDR reads at its address sum where that is an address (rule R161). -/
theorem toNat_ldrAddress {npc : Word} {lit : Literal} {a : Nat} (h : ldrSum npc lit = a) (ha : a < 2 ^ 31) :
    (ldrAddress npc lit).toNat = a := by
  rw [ldrAddress, if_pos (by omega), h, BitVec.toNat_ofInt]
  omega

end Machine
end Sys2Proof
end

section
/-! PROOFS. The obligations about the encoding (30_encoding.md). -/

namespace Sys2Proof

open Machine

/-- Settles O1: the opcode of its word selects each instruction's own arm (`decode_encode`). -/
theorem decodeOfEncode : Obligations.DecodeOfEncode := decode_encode

/-- Settles O2: each arm of the opcode map keeps every bit of the word (`encode_of_decode`). -/
theorem encodeOfDecode : Obligations.EncodeOfDecode := fun _ _ h => encode_of_decode h

/-- Settles O3: each sum is the word of the instruction named, which decodes to it. -/
theorem composedWordsDecode : Obligations.ComposedWordsDecode := by
  refine ⟨fun rc ra rb => ?_, fun rc ra lit => ?_, fun b => ?_⟩
  · and_intros <;> exact decode_registerWord rfl rfl
  · and_intros <;> exact decode_literalWord rfl rfl
  · rw [ofNat_eq_encode_priv, decode_encode]

/-- Settles O4: the opcodes of the decoder's 33 arms are not on the list of rule R87, and every other opcode is. -/
theorem rejectsExactlyUnassignedOpcodes : Obligations.RejectsExactlyUnassignedOpcodes := by
  intro w
  rw [← toNat_opcodeField]
  have hlt := (opcodeField w).isLt
  unfold decode
  split
  case h_34 =>
    refine iff_of_true ⟨_, rfl⟩ ?_
    simp only [imp_false, List.mem_cons, List.not_mem_nil, or_false] at *
    omega
  all_goals
    rename_i hop
    simp [hop]

/-- Settles O6: the two words are those of instructions that clearing makes the same, and clearing keeps the meaning. -/
theorem unusedBitsDoNotMatter : Obligations.UnusedBitsDoNotMatter := by
  intro w w' i i' s hi hi' hdiff
  obtain rfl := encode_of_decode hi
  obtain rfl := encode_of_decode hi'
  have hcleared : i.cleared = i'.cleared := cleared_eq_of_encode_and_eq (and_eq_and_of_xor_and_eq_zero hdiff)
  calc exec i s
      = exec i.cleared s := (exec_cleared i s).symm
    _ = exec i'.cleared s := by rw [hcleared]
    _ = exec i' s := exec_cleared i' s

/-- Settles O7: both say that clearing changes nothing, one of the instruction and one of its word. -/
theorem wellFormedIsShouldBeZero : Obligations.WellFormedIsShouldBeZero := by
  intro w i hi
  obtain rfl := encode_of_decode hi
  calc i.wellFormed = true
      ↔ i.cleared = i := i.wellFormed_iff
    _ ↔ encode i.cleared = encode i := encode_injective.eq_iff.symm
    _ ↔ encode i &&& ~~~i.shouldBeZero = encode i := by rw [encode_cleared]
    _ ↔ encode i &&& i.shouldBeZero = 0#32 := (and_eq_zero_iff_and_not_eq _ _).symm

/-- Settles O8: the literal counts longwords from the updated PC; the branch adds them modulo 2^31 and the label is
below 2^31, and LDR adds them exactly where the updated PC does not wrap. -/
theorem labelLiteralReachesLabel : Obligations.LabelLiteralReachesLabel := by
  intro label p hlabel
  refine ⟨exists_labelLiteral_iff label _, fun lit hlit => ?_⟩
  have hsum := label_eq_of_labelLiteral hlit
  refine ⟨?_, ?_, fun hfit => ?_⟩
  · have htarget := toNat_addrPart_branchTarget p lit
    omega
  · rw [supBit_pcTarget, supBit_pcInc]
  · exact toNat_ldrAddress (by rw [ldrSum_pcInc hfit, hsum]) hlabel

/-- Settles O5: the decoder evaluated on each word. -/
theorem specWordsDecode : Obligations.SpecWordsDecode := by
  unfold Obligations.SpecWordsDecode
  and_intros <;> rfl

end Sys2Proof
end

section
/-! SUPPORT. Instructions that compute, from the one value each of them writes: the value decides the whole statement,
since the end of the instruction is always the same (rule R28). -/

namespace Sys2Proof.Machine

open Certificates

/-- A register form that ends with `f` of its two registers. -/
theorem registerForm_of_value {mk : WithoutLiteral → Instr} {P : Word → Word → Word → Prop} (f : Word → Word → Word)
    (hexec : ∀ o s, exec (mk o) s = writeResult o.rc (f (s.readReg o.ra) (s.readReg o.rb)) s)
    (hf : ∀ a b, P a b (f a b)) : RegisterForm mk P := by
  intro rc ra rb s
  obtain ⟨t, ht, hreg, -, hmem, hint⟩ := writeResult_onlyResult rc (f (s.readReg ra) (s.readReg rb)) s
  exact ⟨t, _, (hexec _ s).trans ht, hreg, hmem, hint, hf _ _⟩

/-- A literal form that ends with `f` of its register and its sign-extended literal (rule R85 (a)). -/
theorem literalForm_of_value {mk : WithLiteral → Instr} {P : Word → Literal → Word → Prop} (f : Word → Word → Word)
    (hexec : ∀ o s, exec (mk o) s = writeResult o.rc (f (s.readReg o.ra) (literalOperand o.lit)) s)
    (hf : ∀ a lit, P a lit (f a (literalOperand lit))) : LiteralForm mk P := by
  intro o s
  obtain ⟨t, ht, hreg, -, hmem, hint⟩ := writeResult_onlyResult o.rc (f (s.readReg o.ra) (literalOperand o.lit)) s
  exact ⟨t, _, (hexec o s).trans ht, hreg, hmem, hint, hf _ _⟩

/-- Sign extension keeps the signed value of the literal (rules R7, R85 (a)). -/
@[simp] theorem toInt_literalOperand (lit : Literal) : (literalOperand lit).toInt = lit.toInt :=
  BitVec.toInt_signExtend_of_le (by decide)

/-- A register that holds a literal's signed value holds the sign-extended literal. -/
theorem eq_literalOperand {b : Word} {lit : Literal} (h : b.toInt = lit.toInt) : b = literalOperand lit :=
  BitVec.eq_of_toInt_eq (h.trans (toInt_literalOperand lit).symm)

/-- A literal that is not zero is not zero as an operand. -/
theorem literalOperand_ne_zero {lit : Literal} (h : lit ≠ 0#16) : literalOperand lit ≠ 0#32 := by
  rw [← BitVec.toInt_ne] at h ⊢
  simpa using h

end Sys2Proof.Machine
end

section
/-! SUPPORT. The low bits of a sum, difference and product (rule R118), and the quotient of DIV as arithmetic on signed
quantities (rule R119). -/

namespace Sys2Proof.Machine

/-! ### Low bits of an exact result, of signed and of unsigned operands -/

theorem ofInt_sub {n : Nat} (x y : Int) : BitVec.ofInt n (x - y) = BitVec.ofInt n x - BitVec.ofInt n y := by
  rw [Int.sub_eq_add_neg, BitVec.ofInt_add, BitVec.ofInt_neg, BitVec.sub_eq_add_neg]

theorem ofInt_toNat {n : Nat} (a : BitVec n) : BitVec.ofInt n a.toNat = a := by
  rw [BitVec.ofInt_natCast, BitVec.ofNat_toNat, BitVec.setWidth_eq]

theorem add_eq_ofInt_toInt {n : Nat} (a b : BitVec n) : a + b = BitVec.ofInt n (a.toInt + b.toInt) := by
  rw [BitVec.ofInt_add, BitVec.ofInt_toInt, BitVec.ofInt_toInt]

theorem sub_eq_ofInt_toInt {n : Nat} (a b : BitVec n) : a - b = BitVec.ofInt n (a.toInt - b.toInt) := by
  rw [ofInt_sub, BitVec.ofInt_toInt, BitVec.ofInt_toInt]

theorem sub_eq_ofInt_toNat {n : Nat} (a b : BitVec n) : a - b = BitVec.ofInt n ((a.toNat : Int) - b.toNat) := by
  rw [ofInt_sub, ofInt_toNat, ofInt_toNat]

theorem mul_eq_ofInt_toInt {n : Nat} (a b : BitVec n) : a * b = BitVec.ofInt n (a.toInt * b.toInt) := by
  rw [BitVec.ofInt_mul, BitVec.ofInt_toInt, BitVec.ofInt_toInt]

/-! ### The quotient -/

/-- Outside the two open corners the model's quotient is the exact one truncated, which 32 bits hold (rule R119). -/
theorem toInt_quotient {a b : Word} (hzero : b ≠ 0#32) (hcorner : ¬(a.toInt = -2 ^ 31 ∧ b.toInt = -1)) :
    (quotient a b).toInt = a.toInt.tdiv b.toInt := by
  have hne : ¬(a = 0x80000000#32 ∧ b = 0xFFFFFFFF#32) := by
    rintro ⟨rfl, rfl⟩
    exact hcorner (by decide)
  calc (quotient a b).toInt
      = (BitVec.ofInt 32 (a.toInt.tdiv b.toInt)).toInt := by rw [quotient, if_neg hzero, if_neg hne]
    _ = (a.sdiv b).toInt := by rw [BitVec.toInt_ofInt, BitVec.toInt_sdiv]
    _ = a.toInt.tdiv b.toInt := BitVec.toInt_sdiv_of_ne_or_ne a b (not_and_or.1 hne)

/-- A truncated quotient as rule R119 gives it: its magnitude is the quotient of the magnitudes, and it is negative
exactly where it is not zero and the signs differ. -/
theorem tdiv_magnitude_and_sign (x y : Int) :
    (x.tdiv y).natAbs = x.natAbs / y.natAbs ∧
      (x.tdiv y < 0 ↔ (x.tdiv y).natAbs ≠ 0 ∧ ¬(x < 0 ↔ y < 0)) := by
  have hsame : (x < 0 ↔ y < 0) → 0 ≤ x.tdiv y := by
    intro h
    by_cases hx : x < 0
    · exact Int.tdiv_nonneg_of_nonpos_of_nonpos hx.le (h.1 hx).le
    · exact Int.tdiv_nonneg (not_lt.1 hx) (not_lt.1 (mt h.2 hx))
  have hdiffer : ¬(x < 0 ↔ y < 0) → x.tdiv y ≤ 0 := by
    intro h
    by_cases hx : x < 0
    · have hneg : 0 ≤ (-x).tdiv y := Int.tdiv_nonneg (by omega) (by omega)
      rw [Int.neg_tdiv] at hneg
      omega
    · exact Int.tdiv_nonpos_of_nonneg_of_nonpos (by omega) (by omega)
  exact ⟨Int.natAbs_tdiv x y, by omega⟩

end Sys2Proof.Machine
end

section
/-! PROOFS. The obligations about the arithmetic instructions (40_arithmetic.md). -/

namespace Sys2Proof.Machine

open Certificates

/-- Settles O9: the model's operations on words are the exact ones modulo 2^32, and a register that reads as the literal
does holds its sign extension. -/
theorem arithmeticGivesLow32Bits : Obligations.ArithmeticGivesLow32Bits := by
  refine ⟨?add, ?addc, ?sub, ?subc, ?mul, ?mulc, ?divc⟩
  case add =>
    exact registerForm_of_value (· + ·) (fun _ _ => rfl) fun a b => ⟨BitVec.toNat_add a b, add_eq_ofInt_toInt a b⟩
  case addc =>
    refine literalForm_of_value (· + ·) (fun _ _ => rfl) fun a lit => ?_
    rw [add_eq_ofInt_toInt, toInt_literalOperand]
  case sub =>
    exact registerForm_of_value (· - ·) (fun _ _ => rfl) fun a b => ⟨sub_eq_ofInt_toNat a b, sub_eq_ofInt_toInt a b⟩
  case subc =>
    refine literalForm_of_value (· - ·) (fun _ _ => rfl) fun a lit => ?_
    rw [sub_eq_ofInt_toInt, toInt_literalOperand]
  case mul =>
    exact registerForm_of_value (· * ·) (fun _ _ => rfl) fun a b => ⟨BitVec.toNat_mul a b, mul_eq_ofInt_toInt a b⟩
  case mulc =>
    refine literalForm_of_value (· * ·) (fun _ _ => rfl) fun a lit => ?_
    rw [mul_eq_ofInt_toInt, toInt_literalOperand]
  case divc =>
    intro rc ra rb lit s hlit
    change execDivc _ s = execDiv _ s
    rw [execDivc, execDiv, eq_literalOperand hlit]

/-- Settles O10: outside the corners the result is the truncated quotient of the signed operands. -/
theorem divisionTruncatesTowardZero : Obligations.DivisionTruncatesTowardZero := by
  refine ⟨?div, ?divc⟩
  case div =>
    refine registerForm_of_value quotient (fun _ _ => rfl) fun a b hzero hcorner => ?_
    rw [toInt_quotient hzero hcorner]
    exact tdiv_magnitude_and_sign _ _
  case divc =>
    refine literalForm_of_value quotient (fun _ _ => rfl) fun a lit hzero hcorner => ?_
    rw [← toInt_literalOperand] at hcorner ⊢
    rw [toInt_quotient (literalOperand_ne_zero hzero) hcorner]
    exact tdiv_magnitude_and_sign _ _

/-- Settles O39: what only computes ends with a result, and a branch or jump ends with its link and its target; the four
opcodes left out are those of the instructions that can stop. -/
theorem onlyMemoryAndPrivilegedInstructionsStop : Obligations.OnlyMemoryAndPrivilegedInstructionsStop := by
  intro i s hi
  cases i with
  | ld o | ldr o | st o | priv b => exact absurd hi (by simp [Instr.opcode])
  | beq o | bne o | jmp o => exact ⟨_, rfl⟩
  | add o | addc o | and o | andc o | cmpeq o | cmpeqc o | cmple o | cmplec o | cmplt o | cmpltc o
  | div o | divc o | mul o | mulc o | or o | orc o | shl o | shlc o | shr o | shrc o | sra o | srac o
  | sub o | subc o | xor o | xorc o =>
    obtain ⟨t, ht, -⟩ := writeResult_onlyResult o.rc _ s
    exact ⟨t, ht⟩

end Sys2Proof.Machine
end

section
/-! SUPPORT. The tests of the compare instructions as relations on their operands, and the value written for each outcome
(rule R136). -/

namespace Sys2Proof.Machine

theorem equalTest_iff {a b : Word} : equalTest a b = true ↔ a = b := beq_iff_eq

theorem lessTest_iff {a b : Word} : lessTest a b = true ↔ a.toInt < b.toInt := decide_eq_true_iff

theorem lessEqualTest_iff {a b : Word} : lessEqualTest a b = true ↔ a.toInt ≤ b.toInt := decide_eq_true_iff

/-- A test that decides a relation writes 1 where the relation holds and 0 where its opposite does (rule R136). -/
theorem toNat_truthWord_of_iff {test : Bool} {holds fails : Prop} (htest : test = true ↔ holds)
    (hfails : ¬holds ↔ fails) :
    (holds → (truthWord test).toNat = 1) ∧ (fails → (truthWord test).toNat = 0) := by
  rw [← hfails, ← htest]
  cases test with
  | true => exact ⟨fun _ => rfl, fun hfalse => absurd rfl hfalse⟩
  | false => exact ⟨fun htrue => absurd htrue Bool.false_ne_true, fun _ => rfl⟩

end Sys2Proof.Machine
end

section
/-! PROOFS. The obligation about the compare instructions (41_compare.md). -/

namespace Sys2Proof.Machine

open Certificates

/-- Settles O11: each instruction writes the truth value of its test, whose relation is that of the operands' signed
values; sign extension keeps the value of a literal, and words of equal value are equal. -/
theorem compareWritesTruthValue : Obligations.CompareWritesTruthValue := by
  refine ⟨?cmpeq, ?cmpeqc, ?cmplt, ?cmpltc, ?cmple, ?cmplec⟩
  case cmpeq =>
    exact registerForm_of_value (fun a b => truthWord (equalTest a b)) (fun _ _ => rfl)
      fun _ _ => toNat_truthWord_of_iff equalTest_iff Iff.rfl
  case cmpeqc =>
    refine literalForm_of_value (fun a b => truthWord (equalTest a b)) (fun _ _ => rfl) fun a lit => ?_
    rw [← toInt_literalOperand]
    exact toNat_truthWord_of_iff (equalTest_iff.trans BitVec.toInt_inj.symm) Iff.rfl
  case cmplt =>
    exact registerForm_of_value (fun a b => truthWord (lessTest a b)) (fun _ _ => rfl)
      fun _ _ => toNat_truthWord_of_iff lessTest_iff not_lt
  case cmpltc =>
    refine literalForm_of_value (fun a b => truthWord (lessTest a b)) (fun _ _ => rfl) fun a lit => ?_
    rw [← toInt_literalOperand]
    exact toNat_truthWord_of_iff lessTest_iff not_lt
  case cmple =>
    exact registerForm_of_value (fun a b => truthWord (lessEqualTest a b)) (fun _ _ => rfl)
      fun _ _ => toNat_truthWord_of_iff lessEqualTest_iff not_le
  case cmplec =>
    refine literalForm_of_value (fun a b => truthWord (lessEqualTest a b)) (fun _ _ => rfl) fun a lit => ?_
    rw [← toInt_literalOperand]
    exact toNat_truthWord_of_iff lessEqualTest_iff not_le

end Sys2Proof.Machine
end

section
/-! SUPPORT. The bits of a sign-extended literal, and the literal form of an operation that works on each bit position by
itself (rule R146). -/

namespace Sys2Proof.Machine

open Certificates

/-- Bits 15:0 of the operand are those of the literal, bits 31:16 are copies of its bit 15 (rules R7, R85 (a)). -/
theorem getLsbD_literalOperand (lit : Literal) {i : Nat} (hi : i < 32) :
    (literalOperand lit).getLsbD i = lit.getLsbD (min i 15) := by
  simp only [literalOperand, BitVec.getLsbD_signExtend, hi, decide_true, Bool.true_and]
  split
  next hlow => rw [min_eq_left (by omega)]
  next hhigh => rw [min_eq_right (by omega), BitVec.msb_eq_getLsbD_last]

/-- A literal form that ends with `f` of its operands, where `f` is the Boolean function `g` at each bit position. -/
theorem literalForm_of_bitwise {mk : WithLiteral → Instr} (f : Word → Word → Word) (g : Bool → Bool → Bool)
    (hexec : ∀ o s, exec (mk o) s = writeResult o.rc (f (s.readReg o.ra) (literalOperand o.lit)) s)
    (hbit : ∀ a b i, (f a b).getLsbD i = g (a.getLsbD i) (b.getLsbD i)) :
    LiteralForm mk (fun a lit v => ∀ i < 32, v.getLsbD i = g (a.getLsbD i) (lit.getLsbD (min i 15))) :=
  literalForm_of_value f hexec fun a lit i hi => by rw [hbit, getLsbD_literalOperand lit hi]

end Sys2Proof.Machine
end

section
/-! PROOFS. The obligation about the logical instructions (42_logical.md). -/

namespace Sys2Proof.Machine

open Certificates

/-- Settles O12: the model's `&&&`, `|||` and `^^^` on words are the Boolean functions at each bit position, of a register
and of a sign-extended literal alike. -/
theorem logicalIsBitwise : Obligations.LogicalIsBitwise := by
  refine ⟨?and, ?andc, ?or, ?orc, ?xor, ?xorc⟩
  case and => exact registerForm_of_value (· &&& ·) (fun _ _ => rfl) fun _ _ _ _ => BitVec.getLsbD_and
  case andc => exact literalForm_of_bitwise (· &&& ·) and (fun _ _ => rfl) fun _ _ _ => BitVec.getLsbD_and
  case or => exact registerForm_of_value (· ||| ·) (fun _ _ => rfl) fun _ _ _ _ => BitVec.getLsbD_or
  case orc => exact literalForm_of_bitwise (· ||| ·) or (fun _ _ => rfl) fun _ _ _ => BitVec.getLsbD_or
  case xor => exact registerForm_of_value (· ^^^ ·) (fun _ _ => rfl) fun _ _ _ _ => BitVec.getLsbD_xor
  case xorc => exact literalForm_of_bitwise (· ^^^ ·) xor (fun _ _ => rfl) fun _ _ _ => BitVec.getLsbD_xor

end Sys2Proof.Machine
end

section
/-! SUPPORT. The five-bit shift count as arithmetic, and the forms that shift by it, from the one shift each of them
makes (rule R156). -/

namespace Sys2Proof.Machine

open Certificates

theorem registerCount_eq_mod (b : Word) : registerCount b = b.toNat % 32 := by
  simp [registerCount]

theorem literalCount_eq_mod (lit : Literal) : literalCount lit = lit.toNat % 32 := by
  simp [literalCount]

/-- The count is in the low bits of the literal, which sign extension keeps (rule R156). -/
theorem registerCount_literalOperand (lit : Literal) : registerCount (literalOperand lit) = literalCount lit := by
  have hbits : (literalOperand lit).extractLsb' 0 5 = lit.extractLsb' 0 5 := by
    ext i hi
    simp only [BitVec.getElem_extractLsb', Nat.zero_add]
    rw [getLsbD_literalOperand lit (by omega), min_eq_left (by omega)]
  exact congrArg BitVec.toNat hbits

/-- A register form that ends with its first register shifted by the count in its second. -/
theorem registerForm_of_shift {mk : WithoutLiteral → Instr} {P : Word → Word → Word → Prop}
    (shift : Word → Nat → Word)
    (hexec : ∀ o s, exec (mk o) s = writeResult o.rc (shift (s.readReg o.ra) (registerCount (s.readReg o.rb))) s)
    (hshift : ∀ a b, P a b (shift a (b.toNat % 32))) : RegisterForm mk P :=
  registerForm_of_value (fun a b => shift a (registerCount b)) hexec fun a b => by
    rw [registerCount_eq_mod]
    exact hshift a b

/-- A literal form that ends with its register shifted by the count in its literal. -/
theorem literalForm_of_shift {mk : WithLiteral → Instr} {P : Word → Literal → Word → Prop}
    (shift : Word → Nat → Word)
    (hexec : ∀ o s, exec (mk o) s = writeResult o.rc (shift (s.readReg o.ra) (literalCount o.lit)) s)
    (hshift : ∀ a lit, P a lit (shift a (lit.toNat % 32))) : LiteralForm mk P := by
  refine literalForm_of_value (fun a b => shift a (registerCount b)) (fun o s => ?_) fun a lit => ?_
  · rw [hexec, registerCount_literalOperand]
  · rw [registerCount_literalOperand, literalCount_eq_mod]
    exact hshift a lit

/-! ### The three shifts as multiplication and division by a power of two -/

/-- Zeroes come in at the low end, and the bits shifted out are lost (rule R150). -/
theorem toNat_shiftLeft_eq_mul_pow (a : Word) (n : Nat) : (a <<< n).toNat = a.toNat * 2 ^ n % 2 ^ 32 := by
  rw [BitVec.toNat_shiftLeft, Nat.shiftLeft_eq]

/-- Zeroes come in at the high end (rule R152). -/
theorem toNat_ushiftRight_eq_div_pow (a : Word) (n : Nat) : (a >>> n).toNat = a.toNat / 2 ^ n := by
  rw [BitVec.toNat_ushiftRight, Nat.shiftRight_eq_div_pow]

/-- Copies of the sign bit come in at the high end, which is division rounding down (rule R154). -/
theorem toInt_sshiftRight_eq_div_pow (a : Word) (n : Nat) : (a.sshiftRight n).toInt = a.toInt / 2 ^ n := by
  rw [BitVec.toInt_sshiftRight, Int.shiftRight_eq_div_pow, Nat.cast_pow, Nat.cast_ofNat]

end Sys2Proof.Machine
end

section
/-! PROOFS. The obligation about the shift instructions (43_shift.md). -/

namespace Sys2Proof.Machine

open Certificates

/-- Settles O13: each instruction makes one shift by its operand modulo 32, and each shift is a multiplication or a
division rounding down. -/
theorem shiftByFiveBitCount : Obligations.ShiftByFiveBitCount := by
  refine ⟨?shl, ?shlc, ?shr, ?shrc, ?sra, ?srac⟩
  case shl => exact registerForm_of_shift (· <<< ·) (fun _ _ => rfl) fun a _ => toNat_shiftLeft_eq_mul_pow a _
  case shlc => exact literalForm_of_shift (· <<< ·) (fun _ _ => rfl) fun a _ => toNat_shiftLeft_eq_mul_pow a _
  case shr => exact registerForm_of_shift (· >>> ·) (fun _ _ => rfl) fun a _ => toNat_ushiftRight_eq_div_pow a _
  case shrc => exact literalForm_of_shift (· >>> ·) (fun _ _ => rfl) fun a _ => toNat_ushiftRight_eq_div_pow a _
  case sra =>
    exact registerForm_of_shift BitVec.sshiftRight (fun _ _ => rfl) fun a _ => toInt_sshiftRight_eq_div_pow a _
  case srac =>
    exact literalForm_of_shift BitVec.sshiftRight (fun _ _ => rfl) fun a _ => toInt_sshiftRight_eq_div_pow a _

end Sys2Proof.Machine
end

section
/-! SUPPORT. The addresses of LD, ST and LDR as arithmetic on signed quantities (rule R163), and LDR once the address it
reads is known. -/

namespace Sys2Proof.Machine

/-- The effective address of LD and ST is the low 32 bits of the exact signed sum (rule R163 (a)). -/
theorem baseDisplacement_eq_ofInt (s : State) (o : WithLiteral) :
    baseDisplacement s o = BitVec.ofInt 32 ((s.readReg o.ra).toInt + o.lit.toInt) := by
  rw [baseDisplacement, add_eq_ofInt_toInt, toInt_literalOperand]

/-- The address sum of LDR, from the pc of the instruction: the updated PC wraps in 31 bits (rules R27, R163 (b)). -/
theorem ldrSum_pcInc_eq_mod (p : Word) (lit : Literal) :
    ldrSum (pcInc p) lit = (((p.toNat + 4) % 2 ^ 31 : Nat) : Int) + 4 * lit.toInt := by
  rw [ldrSum, toNat_addrPart, toNat_pcInc]
  omega

/-- Where the address sum of LDR is no address, LDR reads at the sum modulo 2^31 or modulo 2^32, the two values of
LDR_WRAP (D11; assumption log 12). -/
theorem toNat_ldrAddress_of_wrap {npc : Word} {lit : Literal} {sum : Int} (hsum : ldrSum npc lit = sum)
    (hout : sum < 0 ∨ 2 ^ 31 ≤ sum) :
    (ldrAddress npc lit).toNat = (sum % 2 ^ 31).toNat ∨ (ldrAddress npc lit).toNat = (sum % 2 ^ 32).toNat := by
  rw [ldrAddress, hsum, if_neg (by omega)]
  cases Config.ldrWrap with
  | mod31 =>
    left
    simp only [BitVec.toNat_setWidth, BitVec.toNat_ofInt]
    omega
  | mod32 => exact .inr (BitVec.toNat_ofInt ..)

/-- A longword that ends inside the address space lies in plain memory (rule R58; assumption log 6). -/
theorem plainMemory_of_le {a : Word} (h : a.toNat + 4 ≤ 2 ^ 32) : plainMemory a = true := by
  simp only [plainMemory, memMap, List.any_cons, List.any_nil, Bool.or_false, Bool.and_eq_true, decide_eq_true_eq]
  omega

/-- LDR of a word with a value has that value as its result and no other effect, whatever its Ra field (rules R89,
R161). -/
theorem exec_ldr_onlyResult {o : WithLiteral} {s : State} {a : Nat} {w : Word}
    (ha : (ldrAddress (pcInc s.pc) o.lit).toNat = a) (hfit : a + 4 ≤ 2 ^ 32)
    (hw : Memory.readWord s.mem a = some w) : ∃ t, exec (.ldr o) s = .next t ∧ OnlyResult s t o.rc w := by
  subst ha
  change ∃ t, execLdr o s = .next t ∧ _
  rw [execLdr, memRead_eq_next.2 ⟨plainMemory_of_le hfit, hw⟩, andThen_next]
  exact writeResult_onlyResult o.rc w s

end Sys2Proof.Machine
end

section
/-! PROOFS. The obligations about the load and store instructions (44_load_store.md). -/

namespace Sys2Proof.Machine

/-- Settles O14: an aligned effective address is the one accessed, and the word read there is the result. -/
theorem loadReadsTheWordAtItsAddress : Obligations.LoadReadsTheWordAtItsAddress := by
  intro o s ea w hea haligned hw
  rw [← baseDisplacement_eq_ofInt] at hea
  subst hea
  rw [exec_ld_of_dataAddress (dataAddress_of_mod_four haligned) hw]
  exact writeResult_onlyResult o.rc w s

/-- Settles O15: in range the address is the sum itself. Out of range LDR_WRAP says which of the two it is; both are
multiples of 4 with the pc, so their longwords end inside the address space. -/
theorem loadRelativeReadsTheWord : Obligations.LoadRelativeReadsTheWord := by
  intro o s sum hsum
  have hldr : ldrSum (pcInc s.pc) o.lit = sum := (ldrSum_pcInc_eq_mod s.pc o.lit).trans hsum.symm
  refine ⟨fun hlow hhigh w hw => ?_, fun hout w31 w32 hw31 hw32 hpc => ?_⟩
  · have haddr := toNat_ldrAddress (hldr.trans (Int.toNat_of_nonneg hlow).symm) (by omega)
    exact exec_ldr_onlyResult haddr (by omega) hw
  · have hmul : sum % 4 = 0 := by omega
    rcases toNat_ldrAddress_of_wrap hldr hout with haddr | haddr
    · obtain ⟨t, ht, hres⟩ := exec_ldr_onlyResult haddr (by omega) hw31
      exact ⟨t, w31, ht, hres, .inl rfl⟩
    · obtain ⟨t, ht, hres⟩ := exec_ldr_onlyResult haddr (by omega) hw32
      exact ⟨t, w32, ht, hres, .inr rfl⟩

/-- Settles O16: an aligned effective address is the one accessed, and `State.stored` is the state after the store. -/
theorem storeWritesTheWordAtItsAddress : Obligations.StoreWritesTheWordAtItsAddress := by
  intro o s ea hea haligned
  rw [← baseDisplacement_eq_ofInt] at hea
  subst hea
  exact ⟨_, exec_st_of_dataAddress (dataAddress_of_mod_four haligned), s.stored_effect o _⟩

end Sys2Proof.Machine
end

section
/-! SUPPORT. The control transfers: what BEQ, BNE and JMP share (rule R173), the value a branch tests (rule R175), and
the pc of BEQ, BNE and JMP as arithmetic (rules R170 to R172). -/

namespace Sys2Proof.Machine

/-- The whole effect of a control transfer to `p`: the link is in `x[rc]`, the pc is `p`, and nothing else changes
(rule R173). -/
def LinksAndGoes (s t : State) (rc : RegNum) (p : Word) : Prop :=
  WritesRegister s t rc (pcInc s.pc) ∧ KeepsMemory s t ∧ t.interrupts = s.interrupts ∧ t.pc = p

/-- The end of a control transfer has exactly this effect. -/
theorem linksAndGoes_setPc (s : State) (rc : RegNum) (p : Word) :
    LinksAndGoes s ((s.writeReg rc (pcInc s.pc)).setPc p) rc p :=
  ⟨writesRegister_of_writeAndGo (p := (pcInc s.pc, p)) rfl, fun a => by simp, by simp, rfl⟩

theorem zeroTest_iff {v : Word} : zeroTest v = true ↔ v = 0#32 := beq_iff_eq

/-- BEQ completes: it links, and goes to its target where the tested value is zero (rule R170). -/
theorem exec_beq_linksAndGoes (o : WithLiteral) (s : State) : ∃ t, exec (.beq o) s = .next t ∧
    LinksAndGoes s t o.rc (if testedValue s o (pcInc s.pc) = 0#32 then
      pcTarget (pcInc s.pc) (longwordOffset o.lit) else pcInc s.pc) := by
  simp only [← zeroTest_iff]
  exact ⟨_, rfl, linksAndGoes_setPc s o.rc _⟩

/-- BNE completes: it links, and goes to its target where the tested value is not zero (rule R171). -/
theorem exec_bne_linksAndGoes (o : WithLiteral) (s : State) : ∃ t, exec (.bne o) s = .next t ∧
    LinksAndGoes s t o.rc (if testedValue s o (pcInc s.pc) = 0#32 then
      pcInc s.pc else pcTarget (pcInc s.pc) (longwordOffset o.lit)) := by
  have htaken (v : Word) : v = 0#32 ↔ ¬(!zeroTest v) = true := by simp [zeroTest_iff]
  simp only [htaken, ite_not]
  exact ⟨_, rfl, linksAndGoes_setPc s o.rc _⟩

/-- JMP completes: it links and goes to its masked target, whatever its literal (rules R89, R172). -/
theorem exec_jmp_linksAndGoes (o : WithLiteral) (s : State) : ∃ t, exec (.jmp o) s = .next t ∧
    LinksAndGoes s t o.rc (jumpPc s.pc (s.readReg o.ra)) :=
  ⟨_, rfl, linksAndGoes_setPc s o.rc _⟩

/-- A branch on its own link register tests the link, or the old value, as BRANCH_RA_EQ_RC says (rule R175;
assumption log 11). -/
theorem testedValue_of_eq {s : State} {o : WithLiteral} {npc : Word} (heq : o.ra = o.rc) (h31 : o.ra ≠ 31#5) :
    testedValue s o npc = if Config.branchRaEqRc = .afterWrite then npc else s.readReg o.ra := by
  rw [testedValue, if_pos ⟨heq, h31⟩]
  cases Config.branchRaEqRc with
  | afterWrite => rfl
  | beforeWrite => rfl

/-- Where a branch goes: in either outcome the mode stays; taken, the address is the exact sum modulo 2^31 (rules R26,
R170, R171). -/
theorem mode_and_address_of_branch {s t : State} {lit : Literal} {taken : Prop} [Decidable taken]
    (hpc : t.pc = if taken then pcTarget (pcInc s.pc) (longwordOffset lit) else pcInc s.pc) :
    t.supervisor = s.supervisor ∧
    (taken → ((addrPart t.pc).toNat : Int) = ((addrPart s.pc).toNat + 4 + 4 * lit.toInt) % 2 ^ 31) ∧
    (¬taken → t.pc = pcInc s.pc) := by
  have hsup : supBit t.pc = supBit s.pc := by rw [hpc]; split <;> simp
  refine ⟨by rw [State.supervisor, hsup, State.supervisor], fun htaken => ?_, fun huntaken => ?_⟩
  · rw [hpc, if_pos htaken, toNat_addrPart_branchTarget]
  · rw [hpc, if_neg huntaken]

/-- The address JMP goes to is that of its target rounded down to a multiple of 4 (rule R172). -/
theorem toNat_jumpPc_mod (p target : Word) : (jumpPc p target).toNat % 2 ^ 31 = target.toNat % 2 ^ 31 / 4 * 4 := by
  rw [← toNat_addrPart, addrPart_jumpPc, toNat_addrPart, toNat_and_mask]
  omega

end Sys2Proof.Machine
end

section
/-! PROOFS. The obligations about the control transfer instructions (45_branch.md). -/

namespace Sys2Proof.Machine

/-- Settles O19: the value tested is `x[ra]`. -/
theorem beqBranchesOnZero : Obligations.BeqBranchesOnZero := by
  intro o s hne
  obtain ⟨t, hexec, hregs, hmem, hint, hpc⟩ := exec_beq_linksAndGoes o s
  rw [testedValue_of_ne hne] at hpc
  exact ⟨t, hexec, hregs, hmem, hint, mode_and_address_of_branch hpc⟩

/-- Settles O20: the value tested is `x[ra]`, and the branch is taken where that is not zero. -/
theorem bneBranchesOnNonZero : Obligations.BneBranchesOnNonZero := by
  intro o s hne
  obtain ⟨t, hexec, hregs, hmem, hint, hpc⟩ := exec_bne_linksAndGoes o s
  rw [testedValue_of_ne hne, ← ite_not] at hpc
  obtain ⟨hmode, htaken, huntaken⟩ := mode_and_address_of_branch hpc
  exact ⟨t, hexec, hregs, hmem, hint, hmode, htaken, fun hzero => huntaken (not_not_intro hzero)⟩

/-- Settles O21: the one choice is that of BRANCH_RA_EQ_RC, which no operand and no state enters. -/
theorem branchOnItsOwnLink : Obligations.BranchOnItsOwnLink := by
  refine ⟨decide (Config.branchRaEqRc = .afterWrite), fun o s tested heq h31 htested => ?_⟩
  simp only [decide_eq_true_eq, ← testedValue_of_eq heq h31] at htested
  subst htested
  exact ⟨exec_beq_linksAndGoes o s, exec_bne_linksAndGoes o s⟩

/-- Settles O22: the pc is that of `jumpPc`, whose address part and Supervisor bit are these. -/
theorem jmpJumpsAndCannotSetSupervisor : Obligations.JmpJumpsAndCannotSetSupervisor := by
  intro o s
  obtain ⟨t, hexec, hregs, hmem, hint, hpc⟩ := exec_jmp_linksAndGoes o s
  refine ⟨t, hexec, hregs, hmem, hint, ?_, ?_⟩
  · rw [hpc, toNat_jumpPc_mod]
  · simpa only [State.supervisor, hpc, beq_iff_eq] using supBit_jumpPc_eq_one_iff s.pc (s.readReg o.ra)

end Sys2Proof.Machine
end

section
/-! SUPPORT. Opcode 0x00, and a word that decodes to no instruction, in either mode; the vector as arithmetic. -/

namespace Sys2Proof.Machine

/-- In user mode opcode 0x00 raises IllegalInstruction, which is taken (rules R180, R206). -/
theorem exec_priv_user {s : State} (b : BitVec 26) (h : s.supervisor = false) :
    exec (.priv b) s = .next (takeException .illegalInstruction s) := by
  simp [exec, execPriv, h, raise_user h]

/-- In supervisor mode opcode 0x00 has no meaning of the model's own (rule R180, D15; assumption log 18). -/
theorem exec_priv_supervisor {s : State} (b : BitVec 26) (h : s.supervisor = true) :
    exec (.priv b) s = .refused (.privilegedImplementationDefined b) := by
  simp [exec, execPriv, h]

/-- The pc an exception loads: the Supervisor bit, and the vector as bits 30:2 (rule R206, D13). -/
theorem toNat_vectorPc (k : ExcKind) : (vectorPc k).toNat = 2 ^ 31 + 4 * (vector k).toNat := by
  have hone : (1#1).toNat = 1 := rfl
  have hzero : (0#2).toNat = 0 := rfl
  rw [vectorPc, toNat_append_eq_mul_add, toNat_append_eq_mul_add, hone, hzero]
  omega

/-- A word that decodes to no instruction raises IllegalInstruction (rules R13 (4), R181). -/
theorem dispatchWord_of_decode_error {w : Word} {e : DecodeError} (h : decode w = .error e)
    (run : Instr → State → Answer State) (s : State) : dispatchWord run s w = raise .illegalInstruction s := by
  simp only [dispatchWord, h]

/-- A step that fetches such a word raises IllegalInstruction after the boundary (rules R13 (4), R181). -/
theorem step_of_decode_error {s : State} {w : Word} {e : DecodeError} (hnone : interruptTaken s = none)
    (hw : FetchesWord s w) (herror : decode w = .error e) : step s = raise .illegalInstruction (passBoundary s) := by
  rw [step_of_fetchesWord hnone hw, dispatchWord_of_decode_error herror]

end Sys2Proof.Machine
end

section
/-! PROOFS. The obligations about opcode 0x00 and the unassigned opcodes (46_system.md). -/

namespace Sys2Proof.Machine

/-- Settles O26: the step is `raise`, which enters the handler in user mode and stops the machine in supervisor mode. -/
theorem illegalOpcodeRaises : Obligations.IllegalOpcodeRaises := by
  intro s w e hnone hw herror
  have hstep : step s = raise .illegalInstruction (passBoundary s) := step_of_decode_error hnone hw herror
  refine ⟨fun huser => ?_, fun hsup => ?_⟩
  · have hraise := raise_user (k := .illegalInstruction) ((passBoundary_supervisor s).trans huser)
    rw [← passBoundary_user huser]
    exact ⟨_, hstep.trans hraise, takeException_entersHandler _ _⟩
  · rw [hstep, raise_supervisor ((passBoundary_supervisor s).trans hsup)]

/-- Settles O23: what is taken is exception entry, whose pc is the vector of the illegal instruction, VEC_ILLOP. -/
theorem privilegedOpcodeTrapsInUserMode : Obligations.PrivilegedOpcodeTrapsInUserMode :=
  fun b s huser => ⟨takeException .illegalInstruction s, exec_priv_user b huser, takeException_entersHandler _ _,
    toNat_vectorPc .illegalInstruction⟩

/-- Settles O24: with PRIV_INSTRUCTIONS empty, every one of the 26-bit forms is refused. -/
theorem privilegedOpcodeRefusedInSupervisorMode : Obligations.PrivilegedOpcodeRefusedInSupervisorMode :=
  fun b _ hsup => exec_priv_supervisor b hsup

end Sys2Proof.Machine
end

section
/-! SUPPORT. Exception entry and return: the mode as arithmetic on the pc (rules R24, R205), what XP holds (rule R206), and
JMP through XP (rule R213). -/

namespace Sys2Proof.Machine

/-- User mode is the lower half of the program counters (rules R24, R205). -/
theorem State.user_iff (s : State) : s.supervisor = false ↔ s.pc.toNat < 2 ^ 31 := by
  rw [State.supervisor, beq_eq_false_iff_ne, ne_eq, supBit_eq_one_iff, Nat.not_le]

/-- The updated PC of a user-mode program counter (rule R27). -/
theorem toNat_pcInc_of_user {p : Word} (h : p.toNat < 2 ^ 31) : (pcInc p).toNat = (p.toNat + 4) % 2 ^ 31 := by
  rw [toNat_pcInc]
  omega

/-- Exception entry leaves the updated PC in XP (rule R206). -/
theorem readReg_xp_takeException (k : ExcKind) (s : State) : (takeException k s).readReg xpNum = pcInc s.pc :=
  (takeException_entersHandler k s).1 xpNum

/-- An exception that is taken was raised at a user-mode program counter, whose updated PC is then in XP (rule R206). -/
theorem user_and_xp_of_raise {k : ExcKind} {s t : State} (h : raise k s = .next t) :
    s.pc.toNat < 2 ^ 31 ∧ t.readReg xpNum = pcInc s.pc := by
  obtain ⟨huser, rfl⟩ := raise_eq_next.1 h
  exact ⟨s.user_iff.1 huser, readReg_xp_takeException k s⟩

/-- JMP goes to a user-mode multiple of 4 as it stands, from either mode (rules R26, R172). -/
theorem jumpPc_of_user {p target : Word} (huser : target.toNat < 2 ^ 31) (haligned : target.extractLsb' 0 2 = 0#2) :
    jumpPc p target = target := by
  have hlow : (jumpPc p target).toNat < 2 ^ 31 := by
    rw [← Nat.not_le, ← supBit_eq_one_iff, supBit_jumpPc_eq_one_iff]
    omega
  have haddr := toNat_jumpPc_mod p target
  rw [lowBits_eq_zero_iff_mod_four] at haligned
  exact BitVec.eq_of_toNat_eq (by omega)

/-- A write to register 31 keeps all registers (rule R21). -/
theorem WritesRegister.keepsRegisters {s t : State} {v : Word} (h : WritesRegister s t 31#5 v) : KeepsRegisters s t := by
  intro r
  by_cases h31 : r = 31#5
  · rw [h r, if_pos h31, State.readReg_eq_zero s h31]
  · exact h.readReg_of_ne h31

/-- JMP(XP, R31) with a user-mode multiple of 4 in XP goes there, in user mode, and changes nothing else (rule R213). -/
theorem exec_jmp_xp {u : State} {p : Word} (lit : Literal) (hxp : u.readReg xpNum = p) (huser : p.toNat < 2 ^ 31)
    (haligned : p.extractLsb' 0 2 = 0#2) :
    ∃ v, exec (.jmp ⟨31#5, xpNum, lit⟩) u = .next v ∧ v.pc = p ∧ v.supervisor = false ∧
      KeepsRegisters u v ∧ KeepsMemory u v ∧ v.interrupts = u.interrupts := by
  obtain ⟨v, hexec, hregs, hmem, hint, hpc⟩ := exec_jmp_linksAndGoes ⟨31#5, xpNum, lit⟩ u
  rw [hxp, jumpPc_of_user huser haligned] at hpc
  exact ⟨v, hexec, hpc, v.user_iff.2 (hpc ▸ huser), hregs.keepsRegisters, hmem, hint⟩

/-- Below the last word of the 31-bit space the updated PC less 4 is the pc again (rules R27, R113; C6, assumption
log 24). -/
theorem pcInc_sub_four {p : Word} (huser : p.toNat < 2 ^ 31) (hlast : p.toNat + 4 < 2 ^ 31) :
    pcInc p - literalOperand 4#16 = p := by
  have hinc : pcInc p = p + literalOperand 4#16 := by
    apply BitVec.eq_of_toNat_eq
    have hfour : (literalOperand 4#16).toNat = 4 := rfl
    rw [toNat_pcInc_of_user huser, BitVec.toNat_add, hfour]
    omega
  rw [hinc, BitVec.add_sub_cancel]

end Sys2Proof.Machine
end

section
/-! SUPPORT. Changes of the state that an instruction cannot see: the mode (rule R205) and the coming interrupts (rules
R208, R212). What runs after such a change does the same, and the change is still there after it. -/

namespace Sys2Proof.Machine

/-- A change of the state that keeps what an instruction other than a control transfer and opcode 0x00 reads (registers,
memory, the address in the pc), and that the ends of such instructions carry along. -/
structure Unseen (f : State → State) : Prop where
  readReg : ∀ s r, (f s).readReg r = s.readReg r
  mem : ∀ s, (f s).mem = s.mem
  addrPart : ∀ s, addrPart (f s).pc = addrPart s.pc
  writeReg : ∀ s r v, (f s).writeReg r v = f (s.writeReg r v)
  setMem : ∀ s m, (f s).setMem m = f (s.setMem m)
  advance : ∀ s, (f s).advance = f s.advance

/-- LDR takes its address from the address part of the updated PC alone (rules R33, R161). -/
theorem ldrAddress_congr {p q : Word} (h : addrPart p = addrPart q) (lit : Literal) :
    ldrAddress p lit = ldrAddress q lit := by
  have hsum : ldrSum p lit = ldrSum q lit := by rw [ldrSum, h, ldrSum]
  rw [ldrAddress, hsum, ldrAddress]

section
variable {f : State → State} (hf : Unseen f)
include hf

theorem Unseen.baseDisplacement (s : State) (o : WithLiteral) : baseDisplacement (f s) o = baseDisplacement s o := by
  rw [Machine.baseDisplacement, hf.readReg, Machine.baseDisplacement]

theorem Unseen.ldrAddress (s : State) (lit : Literal) : ldrAddress (pcInc (f s).pc) lit = ldrAddress (pcInc s.pc) lit :=
  ldrAddress_congr (by rw [addrPart_pcInc, addrPart_pcInc, hf.addrPart]) lit

theorem Unseen.fetch (s : State) : fetch (f s) = fetch s := by
  rw [Machine.fetch, fetchAddress, hf.mem, hf.addrPart, Machine.fetch, fetchAddress]

theorem Unseen.writeResult (rc : RegNum) (v : Word) (s : State) :
    writeResult rc v (f s) = andThen (writeResult rc v s) fun t => .next (f t) := by
  rw [Machine.writeResult, hf.writeReg, hf.advance, Machine.writeResult, andThen_next]

theorem Unseen.memWrite (s : State) (a v : Word) :
    memWrite (f s) a v = andThen (memWrite s a v) fun t => .next (f t) := by
  rw [Machine.memWrite, hf.mem, hf.setMem, Machine.memWrite]
  split <;> rfl

/-- What only computes a result does the same after the change. -/
theorem Unseen.exec_of_value {i : Instr} {rc : RegNum} (v : State → Word) (s : State)
    (h : ∀ s, exec i s = Machine.writeResult rc (v s) s) (hv : v (f s) = v s) :
    exec i (f s) = andThen (exec i s) fun t => .next (f t) := by
  rw [h, h, hv, hf.writeResult]

/-- An instruction other than BEQ, BNE, JMP and opcode 0x00 does the same after the change, stops included. -/
theorem Unseen.exec_of_sequential {i : Instr} (hi : i.opcode ∉ [0x1D#6, 0x1E#6, 0x1B#6, 0x00#6]) (s : State) :
    exec i (f s) = andThen (exec i s) fun t => .next (f t) := by
  cases i with
  | beq o | bne o | jmp o | priv b => exact absurd hi (by simp [Instr.opcode])
  | ld o =>
    change execLd o (f s) = andThen (execLd o s) _
    simp only [execLd, andThen_assoc, hf.baseDisplacement, hf.mem, hf.writeResult]
  | ldr o =>
    change execLdr o (f s) = andThen (execLdr o s) _
    simp only [execLdr, andThen_assoc, hf.ldrAddress, hf.mem, hf.writeResult]
  | st o =>
    change execSt o (f s) = andThen (execSt o s) _
    simp only [execSt, andThen_assoc, andThen_next, hf.baseDisplacement, hf.readReg, hf.memWrite, hf.advance]
  | add o | addc o | and o | andc o | cmpeq o | cmpeqc o | cmple o | cmplec o | cmplt o | cmpltc o
  | div o | divc o | mul o | mulc o | or o | orc o | shl o | shlc o | shr o | shrc o | sra o | srac o
  | sub o | subc o | xor o | xorc o => exact hf.exec_of_value _ s (fun _ => rfl) (by simp only [hf.readReg])

end

/-! ### The mode -/

@[simp] theorem addrPart_xor_top (p : Word) : addrPart (p ^^^ 0x80000000#32) = addrPart p := by
  rw [addrPart, BitVec.extractLsb'_xor]
  exact BitVec.xor_zero

@[simp] theorem supBit_xor_top (p : Word) : supBit (p ^^^ 0x80000000#32) = supBit p ^^^ 1#1 := by
  rw [supBit, BitVec.extractLsb'_xor]
  rfl

/-- A program counter is fixed by its Supervisor bit and its address part (rule R24). -/
theorem eq_of_supBit_addrPart {p q : Word} (hsup : supBit p = supBit q) (haddr : addrPart p = addrPart q) : p = q := by
  rw [← supBit_append_addrPart p, hsup, haddr, supBit_append_addrPart]

/-- The updated PC in the other mode (rules R26, R27). -/
theorem pcInc_xor_top (p : Word) : pcInc (p ^^^ 0x80000000#32) = pcInc p ^^^ 0x80000000#32 :=
  eq_of_supBit_addrPart (by simp) (by simp)

theorem State.writeReg_setPc (s : State) (p : Word) (r : RegNum) (v : Word) :
    (s.setPc p).writeReg r v = (s.writeReg r v).setPc p := by
  unfold State.writeReg
  split <;> rfl

/-- The mode is such a change (rules R33, R205). -/
theorem unseen_toggleMode : Unseen State.toggleMode where
  readReg _ _ := rfl
  mem _ := rfl
  addrPart s := addrPart_xor_top s.pc
  writeReg s r v := by rw [State.toggleMode, State.writeReg_setPc, State.toggleMode, State.writeReg_pc]
  setMem _ _ := rfl
  advance s := congrArg s.setPc (pcInc_xor_top s.pc)

/-! ### The coming interrupts -/

theorem State.writeReg_setInterrupts (s : State) (l : List (Option Nat)) (r : RegNum) (v : Word) :
    (s.setInterrupts l).writeReg r v = (s.writeReg r v).setInterrupts l := by
  unfold State.writeReg
  split <;> rfl

/-- The coming interrupts are such a change (rule R208). -/
theorem unseen_setInterrupts (l : List (Option Nat)) : Unseen (·.setInterrupts l) where
  readReg _ _ := rfl
  mem _ := rfl
  addrPart _ := rfl
  writeReg s r v := s.writeReg_setInterrupts l r v
  setMem _ _ := rfl
  advance _ := rfl

theorem branch_setInterrupts (taken : Word → Bool) (o : WithLiteral) (s : State) (l : List (Option Nat)) :
    branch taken o (s.setInterrupts l) = andThen (branch taken o s) fun t => .next (t.setInterrupts l) := by
  simp only [branch, State.writeReg_setInterrupts]
  rfl

theorem raise_setInterrupts (k : ExcKind) (s : State) (l : List (Option Nat)) :
    raise k (s.setInterrupts l) = andThen (raise k s) fun t => .next (t.setInterrupts l) := by
  simp only [raise, takeException, State.writeReg_setInterrupts, State.supervisor_setInterrupts]
  split <;> rfl

/-- No instruction sees the coming interrupts (rules R13, R208). -/
theorem exec_setInterrupts (i : Instr) (s : State) (l : List (Option Nat)) :
    exec i (s.setInterrupts l) = andThen (exec i s) fun t => .next (t.setInterrupts l) := by
  cases i with
  | beq o => exact branch_setInterrupts zeroTest o s l
  | bne o => exact branch_setInterrupts (fun v => !zeroTest v) o s l
  | jmp o =>
    change execJmp o (s.setInterrupts l) = andThen (execJmp o s) _
    simp only [execJmp, State.writeReg_setInterrupts]
    rfl
  | priv b =>
    change execPriv b (s.setInterrupts l) = andThen (execPriv b s) _
    simp only [execPriv, raise_setInterrupts, State.supervisor_setInterrupts]
    split <;> rfl
  | _ => exact (unseen_setInterrupts l).exec_of_sequential (by simp [Instr.opcode]) s

/-- What a fetched word does, does not depend on the coming interrupts (rule R13 (4), (5)). -/
theorem dispatchWord_setInterrupts (s : State) (w : Word) (l : List (Option Nat)) :
    dispatchWord exec (s.setInterrupts l) w = andThen (dispatchWord exec s w) fun t => .next (t.setInterrupts l) := by
  cases hdecode : decode w with
  | ok i => simp only [dispatchWord_of_decode_ok hdecode, exec_setInterrupts]
  | error e => simp only [dispatchWord_of_decode_error hdecode, raise_setInterrupts]

/-- In supervisor mode no interrupt is taken and no choice of the environment is spent (rules R13, R212). -/
theorem step_supervisor {s : State} (h : s.supervisor = true) :
    step s = andThen (fetch s) fun w => dispatchWord exec s w := by
  have hpass : passBoundary s = s := by rw [passBoundary_eq_ite, if_pos h]
  simp only [step, stepWith, interruptTaken_supervisor h, hpass]

end Sys2Proof.Machine
end

section
/-! PROOFS. The obligations about exceptions, interrupts and modes (60_exceptions.md), and about the first step after
reset (70_reset_and_hazards.md). -/

namespace Sys2Proof.Machine

/-- Settles O25: in user mode what is raised is taken, and the updated PC in XP is this as arithmetic. -/
theorem exceptionEntryFromUserMode : Obligations.ExceptionEntryFromUserMode := by
  intro k s huser
  refine ⟨takeException k s, raise_user huser, takeException_entersHandler k s, takeException_supervisor k s,
    pcAligned_vectorPc k, ?_⟩
  rw [readReg_xp_takeException, toNat_pcInc_of_user (s.user_iff.1 huser)]

/-- Settles O28: no interrupt is taken, and neither the fetch nor what the fetched word does sees the list. -/
theorem supervisorModeHoldsInterrupts : Obligations.SupervisorModeHoldsInterrupts := by
  intro s l hsup
  have hfetch : fetch (s.setInterrupts l) = fetch s := (unseen_setInterrupts l).fetch s
  rw [step_supervisor hsup, step_supervisor ((s.supervisor_setInterrupts l).trans hsup), hfetch, andThen_assoc]
  simp only [dispatchWord_setInterrupts]

/-- Settles O30: XP holds the updated PC of a user-mode program counter, which is one again and a multiple of 4. -/
theorem trapReturnsAfterTheWord : Obligations.TrapReturnsAfterTheWord := by
  intro k s t u lit haligned hraise hkept
  obtain ⟨huser, hxp⟩ := user_and_xp_of_raise hraise
  have hinc : (pcInc s.pc).toNat < 2 ^ 31 := by
    rw [toNat_pcInc_of_user huser]
    omega
  exact exec_jmp_xp lit (hkept.trans hxp) hinc (pcAligned_pcInc haligned)

/-- Settles O31: the subtraction puts the pc of the interrupted instruction in XP, since the updated PC did not wrap,
and JMP returns there. -/
theorem interruptReturnsToTheInstruction : Obligations.InterruptReturnsToTheInstruction := by
  intro source s t u lit haligned hlast hraise hkept
  obtain ⟨huser, hxp⟩ := user_and_xp_of_raise hraise
  have hnowrap : s.pc.toNat + 4 < 2 ^ 31 := by
    rw [toNat_addrPart] at hlast
    have hmod := (lowBits_eq_zero_iff_mod_four s.pc).1 haligned
    omega
  obtain ⟨v, hsubc, hregs, -, hmem, -⟩ :=
    writeResult_onlyResult xpNum (u.readReg xpNum - literalOperand 4#16) u
  have hxpv : v.readReg xpNum = s.pc := by
    calc v.readReg xpNum
        = u.readReg xpNum - literalOperand 4#16 := hregs xpNum
      _ = pcInc s.pc - literalOperand 4#16 := by rw [hkept, hxp]
      _ = s.pc := pcInc_sub_four huser hnowrap
  obtain ⟨x, hjmp, hpc, hmode, hregsx, hmemx, -⟩ := exec_jmp_xp lit hxpv huser haligned
  exact ⟨v, x, hsubc, hjmp, hpc, hmode, fun r hr => (hregsx r).trans (hregs.readReg_of_ne hr),
    fun a => (hmemx a).trans (hmem a)⟩

/-- Settles O34: the Supervisor bit is a change that neither these instructions nor the fetch see. -/
theorem instructionsAreTheSameInBothModes : Obligations.InstructionsAreTheSameInBothModes :=
  ⟨fun _ s hi => unseen_toggleMode.exec_of_sequential hi s, unseen_toggleMode.fetch⟩

/-- Settles O38: the pc of reset fetches from location 0, and supervisor mode takes no interrupt. -/
theorem firstStepRunsLocationZero : Obligations.FirstStepRunsLocationZero := by
  intro s w i hpc hword hdecode
  have hsup : s.supervisor = true := by
    rw [State.supervisor, hpc]
    rfl
  have hw : FetchesWord s w := by
    rw [FetchesWord, hpc]
    exact hword
  have hstep := stepRunsDecodedInstruction s w i (interruptTaken_supervisor hsup) hw hdecode
  rw [if_pos hsup] at hstep
  exact ⟨hstep, hsup⟩

end Sys2Proof.Machine
end
